-- ==== Sys2Proof/Word.lean ====
section
/-! DEFINITION. The word types of the engine (00_scope.md R6, R7; 10_state.md R20): nothing here is ever sign-extended. -/

namespace Sys2Proof

/-- A memory byte, a V register, a timer: 8 bits, unsigned (R20). -/
abbrev Byte := BitVec 8

/-- An instruction word, I, PC, a stack slot: 16 bits, unsigned (R20, R70). -/
abbrev Word := BitVec 16

/-- The `nnn` field: a 12-bit unsigned address (R72). -/
abbrev Addr := BitVec 12

/-- A register number 0x0–0xF (R22), and a key code 0x0–0xF (R220). -/
abbrev Reg := Fin 16

/-- `zext_16(nnn)` of R7 and R72. -/
def zext16 (a : Addr) : Word := a.setWidth 16

/-- `bool(b)` of R7, as the byte a flag is written as. -/
def boolByte (b : Bool) : Byte := if b then 1 else 0

end Sys2Proof
end

