-- ==== Sys2Proof/Syntax.lean ====
section
/-! DEFINITION. The 34 instructions of 30_encoding.md R73, in the order of its table, one constructor a row.
The operands' types admit exactly the values the fields of R70 admit, so no `Instr` is ill-formed. -/

namespace Sys2Proof

inductive Instr where
  /-- 00E0, R200 -/
  | cls
  /-- 00EE, R122 -/
  | ret
  /-- 1nnn, R123 -/
  | jp (nnn : Addr)
  /-- 2nnn, R124 -/
  | call (nnn : Addr)
  /-- 3xkk, R125 -/
  | seImm (x : Reg) (kk : Byte)
  /-- 4xkk, R126 -/
  | sneImm (x : Reg) (kk : Byte)
  /-- 5xy0, R127 -/
  | seReg (x y : Reg)
  /-- 6xkk, R142 -/
  | ldImm (x : Reg) (kk : Byte)
  /-- 7xkk, R143 -/
  | addImm (x : Reg) (kk : Byte)
  /-- 8xy0, R144 -/
  | ldReg (x y : Reg)
  /-- 8xy1, R145 -/
  | orReg (x y : Reg)
  /-- 8xy2, R146 -/
  | andReg (x y : Reg)
  /-- 8xy3, R147 -/
  | xorReg (x y : Reg)
  /-- 8xy4, R148 -/
  | addReg (x y : Reg)
  /-- 8xy5, R149 -/
  | sub (x y : Reg)
  /-- 8xy6, R150 -/
  | shr (x y : Reg)
  /-- 8xy7, R151 -/
  | subn (x y : Reg)
  /-- 8xyE, R152 -/
  | shl (x y : Reg)
  /-- 9xy0, R128 -/
  | sneReg (x y : Reg)
  /-- Annn, R181 -/
  | ldI (nnn : Addr)
  /-- Bnnn, R129 -/
  | jpV0 (nnn : Addr)
  /-- Cxkk, R153 -/
  | rnd (x : Reg) (kk : Byte)
  /-- Dxyn, R201; `n` is the row count 0..15 (R72) -/
  | drw (x y : Reg) (n : Fin 16)
  /-- Ex9E, R221 -/
  | skp (x : Reg)
  /-- ExA1, R222 -/
  | sknp (x : Reg)
  /-- Fx07, R223 -/
  | ldVxDt (x : Reg)
  /-- Fx0A, R224 -/
  | ldVxK (x : Reg)
  /-- Fx15, R225 -/
  | ldDtVx (x : Reg)
  /-- Fx18, R226 -/
  | ldStVx (x : Reg)
  /-- Fx1E, R182 -/
  | addI (x : Reg)
  /-- Fx29, R183 -/
  | ldF (x : Reg)
  /-- Fx33, R184 -/
  | ldB (x : Reg)
  /-- Fx55, R185 -/
  | ldStore (x : Reg)
  /-- Fx65, R186 -/
  | ldLoad (x : Reg)
  deriving DecidableEq, Repr

end Sys2Proof
end

