-- ==== Sys2Proof/WellFormed.lean ====
section
/-! DEFINITION. The opcode map of 30_encoding.md R73 as data, and when a 16-bit word is an instruction at all. It is written from
the match and mask columns of R73, apart from the decoder (which follows the procedure of R76), so that the two can be compared. -/

namespace Sys2Proof

/-- One row of R73: a word `op` encodes the instruction when `op & mask = code`. -/
structure OpcodeRow where
  mnemonic : String
  code : Word
  mask : Word
  deriving DecidableEq, Repr

def OpcodeRow.covers (r : OpcodeRow) (op : Word) : Bool := op &&& r.mask == r.code

/-- The row of R73 that an instruction belongs to. -/
def Instr.row : Instr → OpcodeRow
  | .cls => ⟨"CLS", 0x00E0, 0xFFFF⟩
  | .ret => ⟨"RET", 0x00EE, 0xFFFF⟩
  | .jp _ => ⟨"JP addr", 0x1000, 0xF000⟩
  | .call _ => ⟨"CALL addr", 0x2000, 0xF000⟩
  | .seImm _ _ => ⟨"SE Vx, kk", 0x3000, 0xF000⟩
  | .sneImm _ _ => ⟨"SNE Vx, kk", 0x4000, 0xF000⟩
  | .seReg _ _ => ⟨"SE Vx, Vy", 0x5000, 0xF00F⟩
  | .ldImm _ _ => ⟨"LD Vx, kk", 0x6000, 0xF000⟩
  | .addImm _ _ => ⟨"ADD Vx, kk", 0x7000, 0xF000⟩
  | .ldReg _ _ => ⟨"LD Vx, Vy", 0x8000, 0xF00F⟩
  | .orReg _ _ => ⟨"OR Vx, Vy", 0x8001, 0xF00F⟩
  | .andReg _ _ => ⟨"AND Vx, Vy", 0x8002, 0xF00F⟩
  | .xorReg _ _ => ⟨"XOR Vx, Vy", 0x8003, 0xF00F⟩
  | .addReg _ _ => ⟨"ADD Vx, Vy", 0x8004, 0xF00F⟩
  | .sub _ _ => ⟨"SUB Vx, Vy", 0x8005, 0xF00F⟩
  | .shr _ _ => ⟨"SHR Vx, Vy", 0x8006, 0xF00F⟩
  | .subn _ _ => ⟨"SUBN Vx, Vy", 0x8007, 0xF00F⟩
  | .shl _ _ => ⟨"SHL Vx, Vy", 0x800E, 0xF00F⟩
  | .sneReg _ _ => ⟨"SNE Vx, Vy", 0x9000, 0xF00F⟩
  | .ldI _ => ⟨"LD I, addr", 0xA000, 0xF000⟩
  | .jpV0 _ => ⟨"JP V0, addr", 0xB000, 0xF000⟩
  | .rnd _ _ => ⟨"RND Vx, kk", 0xC000, 0xF000⟩
  | .drw _ _ _ => ⟨"DRW Vx, Vy, n", 0xD000, 0xF000⟩
  | .skp _ => ⟨"SKP Vx", 0xE09E, 0xF0FF⟩
  | .sknp _ => ⟨"SKNP Vx", 0xE0A1, 0xF0FF⟩
  | .ldVxDt _ => ⟨"LD Vx, DT", 0xF007, 0xF0FF⟩
  | .ldVxK _ => ⟨"LD Vx, K", 0xF00A, 0xF0FF⟩
  | .ldDtVx _ => ⟨"LD DT, Vx", 0xF015, 0xF0FF⟩
  | .ldStVx _ => ⟨"LD ST, Vx", 0xF018, 0xF0FF⟩
  | .addI _ => ⟨"ADD I, Vx", 0xF01E, 0xF0FF⟩
  | .ldF _ => ⟨"LD F, Vx", 0xF029, 0xF0FF⟩
  | .ldB _ => ⟨"LD B, Vx", 0xF033, 0xF0FF⟩
  | .ldStore _ => ⟨"LD [I], Vx", 0xF055, 0xF0FF⟩
  | .ldLoad _ => ⟨"LD Vx, [I]", 0xF065, 0xF0FF⟩

/-- The whole map of R73, in its order: the row of one instruction of each kind. -/
def opcodeMap : List OpcodeRow :=
  ([.cls, .ret, .jp 0, .call 0, .seImm 0 0, .sneImm 0 0, .seReg 0 0, .ldImm 0 0, .addImm 0 0, .ldReg 0 0, .orReg 0 0,
    .andReg 0 0, .xorReg 0 0, .addReg 0 0, .sub 0 0, .shr 0 0, .subn 0 0, .shl 0 0, .sneReg 0 0, .ldI 0, .jpV0 0, .rnd 0 0,
    .drw 0 0 0, .skp 0, .sknp 0, .ldVxDt 0, .ldVxK 0, .ldDtVx 0, .ldStVx 0, .addI 0, .ldF 0, .ldB 0, .ldStore 0,
    .ldLoad 0] : List Instr).map Instr.row

/-- A word is well formed when some row of R73 covers it; every other word is illegal (R74). -/
def wordWellFormed (op : Word) : Bool := opcodeMap.any (·.covers op)

/-- ROM_MAX of R5: the longest image `loadRom` accepts (R282). -/
def romMax : Nat := 3584

/-- A ROM image is well formed when it fits above 0x200 (R282); a longer one is RomTooLarge (R245). -/
def romWellFormed (bytes : List Byte) : Bool := bytes.length ≤ romMax

end Sys2Proof
end

