-- ==== Sys2Proof/Decode.lean ====
section
/-! DEFINITION. The decoder of 30_encoding.md R76 (fields: R70), total on words and on byte lists, rejecting by name; and an
encoder written from the patterns of R73. -/

namespace Sys2Proof

/-- Why bytes are no instruction. -/
inductive DecodeReject where
  /-- The word is illegal (R74): the decoder raises DecodeFault (R241). -/
  | illegal (op : Word)
  /-- Fewer than the two bytes every instruction has (R71). -/
  | truncated
  deriving DecidableEq, Repr

/-- `f = op[15:12]`, the opcode family (R70). -/
def fieldF (op : Word) : Nat := (op.extractLsb' 12 4).toNat

/-- `x = op[11:8]` (R70). -/
def fieldX (op : Word) : Reg := (op.extractLsb' 8 4).toFin

/-- `y = op[7:4]` (R70). -/
def fieldY (op : Word) : Reg := (op.extractLsb' 4 4).toFin

/-- `n = op[3:0]` (R70). -/
def fieldN (op : Word) : Fin 16 := (op.extractLsb' 0 4).toFin

/-- `kk = op[7:0]` (R70). -/
def fieldKK (op : Word) : Byte := op.extractLsb' 0 8

/-- `nnn = op[11:0]` (R70). -/
def fieldNNN (op : Word) : Addr := op.extractLsb' 0 12

/-- Family 0: the exact patterns 00E0 and 00EE (R76; conflict C1). -/
def decode0 (op : Word) : Except DecodeReject Instr :=
  if op = 0x00E0 then .ok .cls else if op = 0x00EE then .ok .ret else .error (.illegal op)

/-- Family 8, by the low nibble (R76). -/
def decode8 (op : Word) : Except DecodeReject Instr :=
  let x := fieldX op
  let y := fieldY op
  match (fieldN op).val with
  | 0x0 => .ok (.ldReg x y)
  | 0x1 => .ok (.orReg x y)
  | 0x2 => .ok (.andReg x y)
  | 0x3 => .ok (.xorReg x y)
  | 0x4 => .ok (.addReg x y)
  | 0x5 => .ok (.sub x y)
  | 0x6 => .ok (.shr x y)
  | 0x7 => .ok (.subn x y)
  | 0xE => .ok (.shl x y)
  | _ => .error (.illegal op)

/-- Family E, by the low byte (R76). -/
def decodeE (op : Word) : Except DecodeReject Instr :=
  match (fieldKK op).toNat with
  | 0x9E => .ok (.skp (fieldX op))
  | 0xA1 => .ok (.sknp (fieldX op))
  | _ => .error (.illegal op)

/-- Family F, by the low byte (R76). -/
def decodeF (op : Word) : Except DecodeReject Instr :=
  let x := fieldX op
  match (fieldKK op).toNat with
  | 0x07 => .ok (.ldVxDt x)
  | 0x0A => .ok (.ldVxK x)
  | 0x15 => .ok (.ldDtVx x)
  | 0x18 => .ok (.ldStVx x)
  | 0x1E => .ok (.addI x)
  | 0x29 => .ok (.ldF x)
  | 0x33 => .ok (.ldB x)
  | 0x55 => .ok (.ldStore x)
  | 0x65 => .ok (.ldLoad x)
  | _ => .error (.illegal op)

/-- `decode(op)` of R76: first the high nibble, then the secondary selector of families 0, 5, 8, 9, E and F. -/
def decode (op : Word) : Except DecodeReject Instr :=
  let x := fieldX op
  let y := fieldY op
  match fieldF op with
  | 0x0 => decode0 op
  | 0x1 => .ok (.jp (fieldNNN op))
  | 0x2 => .ok (.call (fieldNNN op))
  | 0x3 => .ok (.seImm x (fieldKK op))
  | 0x4 => .ok (.sneImm x (fieldKK op))
  | 0x5 => if fieldN op = 0 then .ok (.seReg x y) else .error (.illegal op)
  | 0x6 => .ok (.ldImm x (fieldKK op))
  | 0x7 => .ok (.addImm x (fieldKK op))
  | 0x8 => decode8 op
  | 0x9 => if fieldN op = 0 then .ok (.sneReg x y) else .error (.illegal op)
  | 0xA => .ok (.ldI (fieldNNN op))
  | 0xB => .ok (.jpV0 (fieldNNN op))
  | 0xC => .ok (.rnd x (fieldKK op))
  | 0xD => .ok (.drw x y (fieldN op))
  | 0xE => decodeE op
  | 0xF => decodeF op
  | _ => .error (.illegal op)

/-- The word of two bytes, the first the more significant: `(hi << 8) | lo` (R55). -/
def wordOfBytes (hi lo : Byte) : Word := (hi.setWidth 16 <<< 8) ||| lo.setWidth 16

/-- Decoding a byte list: the instruction of its first two bytes, and the rest (R55, R71). -/
def decodeBytes : List Byte → Except DecodeReject (Instr × List Byte)
  | hi :: lo :: rest => (decode (wordOfBytes hi lo)).map (·, rest)
  | _ => .error .truncated

/-- A 4-bit field as the word it is put into before it is shifted to its place. -/
def nibble (b : BitVec 4) : Word := b.setWidth 16

/-- A register number as a 4-bit field (R70). -/
def regField (x : Reg) : BitVec 4 := BitVec.ofFin (w := 4) x

/-- The pattern `fnnn` (R70). -/
def packNNN (f : BitVec 4) (nnn : Addr) : Word := (nibble f <<< 12) ||| nnn.setWidth 16

/-- The pattern `fxkk` (R70). -/
def packXKK (f : BitVec 4) (x : Reg) (kk : Byte) : Word :=
  (nibble f <<< 12) ||| (nibble (regField x) <<< 8) ||| kk.setWidth 16

/-- The pattern `fxyn` (R70). -/
def packXYN (f : BitVec 4) (x y : Reg) (n : BitVec 4) : Word :=
  (nibble f <<< 12) ||| (nibble (regField x) <<< 8) ||| (nibble (regField y) <<< 4) ||| nibble n

/-- The word an instruction assembles to, by the patterns of R73 (R78: exactly one). -/
def encode : Instr → Word
  | .cls => 0x00E0
  | .ret => 0x00EE
  | .jp nnn => packNNN 0x1 nnn
  | .call nnn => packNNN 0x2 nnn
  | .seImm x kk => packXKK 0x3 x kk
  | .sneImm x kk => packXKK 0x4 x kk
  | .seReg x y => packXYN 0x5 x y 0x0
  | .ldImm x kk => packXKK 0x6 x kk
  | .addImm x kk => packXKK 0x7 x kk
  | .ldReg x y => packXYN 0x8 x y 0x0
  | .orReg x y => packXYN 0x8 x y 0x1
  | .andReg x y => packXYN 0x8 x y 0x2
  | .xorReg x y => packXYN 0x8 x y 0x3
  | .addReg x y => packXYN 0x8 x y 0x4
  | .sub x y => packXYN 0x8 x y 0x5
  | .shr x y => packXYN 0x8 x y 0x6
  | .subn x y => packXYN 0x8 x y 0x7
  | .shl x y => packXYN 0x8 x y 0xE
  | .sneReg x y => packXYN 0x9 x y 0x0
  | .ldI nnn => packNNN 0xA nnn
  | .jpV0 nnn => packNNN 0xB nnn
  | .rnd x kk => packXKK 0xC x kk
  | .drw x y n => packXYN 0xD x y (regField n)
  | .skp x => packXKK 0xE x 0x9E
  | .sknp x => packXKK 0xE x 0xA1
  | .ldVxDt x => packXKK 0xF x 0x07
  | .ldVxK x => packXKK 0xF x 0x0A
  | .ldDtVx x => packXKK 0xF x 0x15
  | .ldStVx x => packXKK 0xF x 0x18
  | .addI x => packXKK 0xF x 0x1E
  | .ldF x => packXKK 0xF x 0x29
  | .ldB x => packXKK 0xF x 0x33
  | .ldStore x => packXKK 0xF x 0x55
  | .ldLoad x => packXKK 0xF x 0x65

/-- The more significant byte of a word, the one at the lower address (R55). -/
def highByte (op : Word) : Byte := op.extractLsb' 8 8

/-- The less significant byte of a word (R55). -/
def lowByte (op : Word) : Byte := op.extractLsb' 0 8

/-- An instruction's two bytes as memory holds them (R55, R71). -/
def encodeBytes (i : Instr) : List Byte := [highByte (encode i), lowByte (encode i)]

/-- The word of an opcode-table row's bits: the `nbits` given, every bit above them 0. -/
def tableWord (nbits w : Nat) : Word := BitVec.ofNat 16 (w % 2 ^ nbits)

/-- What the decoder reads from the bits of an opcode-table row, laid out in memory order (R55). -/
def decodeTableWord (nbits w : Nat) : Option Instr :=
  match decodeBytes [highByte (tableWord nbits w), lowByte (tableWord nbits w)] with
  | .ok (i, _) => some i
  | .error _ => none

end Sys2Proof
end

