-- ==== Sys2Proof/Config.lean ====
section
/-! DEFINITION. What the spec leaves to a parameter or to the outside (00_scope.md R5, 10_state.md R21): the three open
parameters as plain data, the calls a driver makes, and the two free values, which have no body. -/

namespace Sys2Proof

/-- GLYPH_WRITE_POLICY of R5 and R51 (decision D10). -/
inductive GlyphPolicy where
  | allow
  | fault
  deriving DecidableEq, Repr

/-- The open parameters of R5. They are fixed for a machine: State holds them and no step changes them. -/
structure Config where
  /-- PC_MIN, the lowest address an instruction may be fetched from (decision D8). -/
  pcMin : Word
  /-- GLYPH_WRITE_POLICY (decision D10). -/
  glyphWrites : GlyphPolicy
  /-- GLYPHS: glyph d is row d, its byte r is row r of the bitmap (R53, decision D13). -/
  glyphs : Vector (Vector Byte 5) 16
  deriving DecidableEq, Repr

/-- The driver operations of 60_exceptions.md R258 that change the engine. -/
inductive DriverCall where
  /-- `reset()`, R280 -/
  | reset
  /-- `loadRom(bytes)`, R282 -/
  | loadRom (bytes : List Byte)
  /-- `setKeys(k)`, R256 -/
  | setKeys (k : Vector Bool 16)
  /-- `step(N)`, R100 -/
  | step (n : Nat)
  deriving DecidableEq, Repr, Inhabited

/-- FREE VALUE (log 4): the draw of a Cxkk for which State lists no draw, by the count of such draws (R153). -/
opaque Config.randByte : Nat → Byte

/-- FREE VALUE (log 5): the driver's next call where State lists none, by the count of such calls (R258). -/
opaque Config.driverCall : Nat → DriverCall

end Sys2Proof
end

