-- ==== Sys2Proof/Machine/Params.lean ====
section
/-! DEFINITION. The values of the parameters of 00_scope.md R5: sizes and addresses the source fixes, and this spec's value of
each open parameter (decisions D8, D10, D13), which State.reset takes and any other machine may differ in. -/

namespace Sys2Proof.Machine

/-- MEM_SIZE (R5, R50): addresses 0x000–0xFFF. -/
def memSize : Nat := 0x1000

/-- GLYPH_BASE (R5, R53). -/
def glyphBase : Nat := 0x050

/-- One past the last glyph byte: the glyphs occupy 0x050–0x09F (R52). -/
def glyphEnd : Nat := 0x0A0

/-- ROM_BASE, and the reset value of PC (R5, R32). -/
def romBase : Nat := 0x200

/-- The reset value of PC (R32). -/
abbrev pcReset : Word := 0x200

/-- PC_MAX, the highest address an instruction may be fetched from (R5). -/
abbrev pcMax : Word := 0xFFE

/-- The default GLYPHS table of 20_memory.md R53. PRESUMED, unsafe (log 1): the spec takes the bytes from general knowledge;
a claim about pixels drawn from glyphs takes `cfg.glyphs` as a premise. -/
def glyphTable : Vector (Vector Byte 5) 16 :=
  #v[#v[0xF0, 0x90, 0x90, 0x90, 0xF0],
     #v[0x20, 0x60, 0x20, 0x20, 0x70],
     #v[0xF0, 0x10, 0xF0, 0x80, 0xF0],
     #v[0xF0, 0x10, 0xF0, 0x10, 0xF0],
     #v[0x90, 0x90, 0xF0, 0x10, 0x10],
     #v[0xF0, 0x80, 0xF0, 0x10, 0xF0],
     #v[0xF0, 0x80, 0xF0, 0x90, 0xF0],
     #v[0xF0, 0x10, 0x20, 0x40, 0x40],
     #v[0xF0, 0x90, 0xF0, 0x90, 0xF0],
     #v[0xF0, 0x90, 0xF0, 0x10, 0xF0],
     #v[0xF0, 0x90, 0xF0, 0x90, 0x90],
     #v[0xE0, 0x90, 0xE0, 0x90, 0xE0],
     #v[0xF0, 0x80, 0x80, 0x80, 0xF0],
     #v[0xE0, 0x90, 0x90, 0x90, 0xE0],
     #v[0xF0, 0x80, 0xF0, 0x80, 0xF0],
     #v[0xF0, 0x80, 0xF0, 0x80, 0x80]]

/-- This spec's value of each open parameter: PC_MIN = 0x200 (D8, log 2), GLYPH_WRITE_POLICY = allow (D10, log 3), GLYPHS the
default table (D13, log 1). -/
def defaultConfig : Config where
  pcMin := 0x200
  glyphWrites := .allow
  glyphs := glyphTable

end Sys2Proof.Machine
end

