-- ==== Sys2Proof/Machine/Memory.lean ====
section
/-! DEFINITION. The 4096-byte memory of 20_memory.md R50 as a list of cells in one canonical form: addresses strictly rising, none
outside 0x000–0xFFF, no cell equal to what an unlisted address reads as (the form is the model's choice, log 13). An unlisted address reads as its reset contents (R32,
R52): a glyph byte at 0x050–0x09F, zero elsewhere. -/

namespace Sys2Proof.Machine

abbrev Memory := List Host.Cell

/-- What an address that memory does not list reads as: its reset contents (R32, R53). -/
def Memory.unlisted (g : Vector (Vector Byte 5) 16) (a : Nat) : Byte :=
  if h : glyphBase ≤ a ∧ a < glyphEnd then
    (g[(a - glyphBase) / 5]'(by unfold glyphBase glyphEnd at *; omega))[(a - glyphBase) % 5]'(Nat.mod_lt _ (by decide))
  else 0

/-- `M[a]`. -/
def Memory.get (g : Vector (Vector Byte 5) 16) : Memory → Nat → Byte
  | [], a => Memory.unlisted g a
  | (k, b) :: rest, a => if k = a then b else Memory.get g rest a

/-- Memory without the cell at `a`. -/
def Memory.erase : Memory → Nat → Memory
  | [], _ => []
  | (k, b) :: rest, a => if k = a then Memory.erase rest a else (k, b) :: Memory.erase rest a

/-- Memory with a cell put in at its place by address. -/
def Memory.insert : Memory → Nat → Byte → Memory
  | [], a, b => [(a, b)]
  | (k, c) :: rest, a, b => if a < k then (a, b) :: (k, c) :: rest else (k, c) :: Memory.insert rest a b

/-- `M[a] <- b`, in canonical form: writing what an unlisted address reads as removes the cell. -/
def Memory.set (g : Vector (Vector Byte 5) 16) (m : Memory) (a : Nat) (b : Byte) : Memory :=
  if b = Memory.unlisted g a then m.erase a else (m.erase a).insert a b

/-- `M[a + j] <- bs[j]` for each j in order. -/
def Memory.setBytes (g : Vector (Vector Byte 5) 16) : Memory → Nat → List Byte → Memory
  | m, _, [] => m
  | m, a, b :: bs => Memory.setBytes g (Memory.set g m a b) (a + 1) bs

/-- Every address listed in `m` is above `lo`, inside the address space and differs from what it would read as unlisted; and the
addresses rise. -/
def Memory.wfAbove (g : Vector (Vector Byte 5) 16) (lo : Nat) : Memory → Bool
  | [] => true
  | (k, b) :: rest => lo ≤ k && k < memSize && b != Memory.unlisted g k && Memory.wfAbove g (k + 1) rest

/-- The canonical form. -/
def Memory.wf (g : Vector (Vector Byte 5) 16) (m : Memory) : Bool := Memory.wfAbove g 0 m

end Sys2Proof.Machine
end

