-- ==== Sys2Proof/Machine/State.lean ====
section
/-! DEFINITION. The state of the engine (10_state.md R20–R33), the reasons a step can stop, and the state after reset (R32). -/

namespace Sys2Proof.Machine

/-- The fault kinds of 60_exceptions.md R240. Each is TAKEN: the engine latches it in HALT (R248); see `State.raise`. -/
inductive FaultKind where
  /-- An illegal word was fetched (R241). -/
  | decodeFault
  /-- CALL with SP = 16 (R242). -/
  | stackOverflow
  /-- RET with SP = 0 (R243). -/
  | stackUnderflow
  /-- A fetch outside the window, or a data access outside memory or into protected glyphs (R244). -/
  | addressFault
  /-- A ROM image that does not fit, returned by loadRom only (R245). -/
  | romTooLarge
  deriving DecidableEq, Repr

/-- The fault record of R247. -/
structure FaultRecord where
  kind : FaultKind
  /-- pc0, the address of the faulting instruction -/
  pc : Word
  /-- the fetched word, or none for a fetch-window fault -/
  opcode : Option Word
  /-- the offending address of an AddressFault, an exact integer (R51), and none otherwise -/
  addr : Option Nat
  deriving DecidableEq, Repr

/-- What `step` and `loadRom` return to the driver (R240, R247). -/
inductive Status where
  | ok
  /-- the step met a fault, or the engine was halted: the record HALT holds -/
  | halted (r : FaultRecord)
  /-- returned by `loadRom` only (R245) -/
  | romTooLarge
  deriving DecidableEq, Repr

/-- The model's outcome "fault": a state the spec gives no rule for. The faults of R240 are NOT these: they are taken, as a next
state with HALT latched. -/
inductive Fault where
  /-- Raised by `step` alone, in a state where HALT is latched while a step call is still running. R100 ends a step call when it
  latches HALT, so no run reaches such a state (log 7). Safe: the model stops. -/
  | haltedMidStep
  deriving DecidableEq, Repr

/-- Why the model gives no next state. -/
inductive Refusal where
  /-- Raised by an arm of `exec` for an instruction without a meaning; no arm does. Safe. -/
  | notModelled (mnemonic : String)
  /-- Raised by `step` when the driver calls loadRom with an image that fits and no reset preceded it: the spec says nothing of
  what follows (R282, D21, U15; log 8). Safe. -/
  | loadRomWithoutReset
  deriving DecidableEq, Repr

/-- The RAND input (R21, R153): not engine state. -/
structure RandInput where
  /-- draws already lined up, the next one first -/
  pending : List Byte
  /-- how many draws were taken beyond those -/
  draws : Nat
  deriving DecidableEq, Repr

/-- The driver's side (R258, R283): not engine state. -/
structure DriverSide where
  /-- the calls already lined up, the next one first -/
  script : List DriverCall
  /-- how many calls were taken beyond those -/
  calls : Nat
  /-- instructions of the running step call still to run; 0 when no step call is running (R100) -/
  left : Nat
  /-- no step call was made since the last reset (R282) -/
  fresh : Bool
  /-- the status last returned (R247) -/
  returned : Status
  deriving DecidableEq, Repr

/-- The state: the tuple of R20, then the parameters of R5, then the model's own record of the inputs. -/
structure State where
  /-- memory, R50 -/
  mem : Memory
  /-- V0–VF, R22 -/
  v : Vector Byte 16
  /-- I, R25 -/
  i : Word
  /-- PC, R26 -/
  pc : Word
  /-- S[0..15], R27 -/
  stack : Vector Word 16
  /-- SP, an integer 0..16, R27 -/
  sp : Fin 17
  /-- the delay timer, R28 -/
  dt : Byte
  /-- the sound timer, R28 -/
  st : Byte
  /-- K[0..15], true = key down, R29 -/
  keys : Vector Bool 16
  /-- FB[y][x]: row y, column x, true = pixel on, R30 -/
  fb : Vector (Vector Bool 64) 32
  /-- HALT, R31 -/
  halt : Option FaultRecord
  /-- the open parameters, R5 -/
  cfg : Config
  /-- the RAND input, R153 -/
  rand : RandInput
  /-- the driver's side, R258 -/
  drv : DriverSide
  deriving DecidableEq, Repr

/-- Right after reset (R32, R280, R281). `rand` and `drv` are the model's own and hold no input (logs 4, 5, 6, 8, 10). -/
def State.reset : State where
  mem := []
  v := Vector.replicate 16 0
  i := 0
  pc := pcReset
  stack := Vector.replicate 16 0
  sp := 0
  dt := 0
  st := 0
  keys := Vector.replicate 16 false
  fb := Vector.replicate 32 (Vector.replicate 64 false)
  halt := none
  cfg := defaultConfig
  rand := { pending := [], draws := 0 }
  drv := { script := [], calls := 0, left := 0, fresh := true, returned := .ok }

end Sys2Proof.Machine
end

