-- ==== Sys2Proof/Machine/Ops.lean ====
section
/-! DEFINITION. The named operations over the state: registers and PC, the call stack (R27), memory access (20_memory.md R51),
the framebuffer (R30, R201), the random draw (R153), taking a fault (60_exceptions.md R246–R248) and the one way out of it, reset. -/

namespace Sys2Proof.Machine

/-! ### Registers -/

/-- `V[x]` (R8). -/
def State.reg (s : State) (x : Reg) : Byte := s.v[x.val]

/-- `V[x] <- b` (R8). -/
def State.setReg (s : State) (x : Reg) (b : Byte) : State := { s with v := s.v.set x.val b x.isLt }

/-- `I <- w`. -/
def State.setI (s : State) (w : Word) : State := { s with i := w }

/-- `PC <- w`. -/
def State.setPc (s : State) (w : Word) : State := { s with pc := w }

/-- `DT <- b`. -/
def State.setDt (s : State) (b : Byte) : State := { s with dt := b }

/-- `ST <- b`. -/
def State.setSt (s : State) (b : Byte) : State := { s with st := b }

/-- All sixteen V registers at once. -/
def State.setV (s : State) (v : Vector Byte 16) : State := { s with v := v }

def State.setMem (s : State) (m : Memory) : State := { s with mem := m }

def State.setFb (s : State) (fb : Vector (Vector Bool 64) 32) : State := { s with fb := fb }

def State.setStack (s : State) (stack : Vector Word 16) (sp : Fin 17) : State := { s with stack := stack, sp := sp }

def State.setKeys (s : State) (k : Vector Bool 16) : State := { s with keys := k }

def State.setHalt (s : State) (r : Option FaultRecord) : State := { s with halt := r }

def State.setRand (s : State) (r : RandInput) : State := { s with rand := r }

def State.setDrv (s : State) (d : DriverSide) : State := { s with drv := d }

/-- The address after the instruction at PC: `pc0 + 2`, the default advance (R101). -/
def State.nextPc (s : State) : Word := s.pc + 2

/-- The default advance, for a handler that leaves PC alone (R102). -/
def State.advance (s : State) : State := s.setPc s.nextPc

/-- The end of a conditional handler: a skip ends at `pc0 + 4` (R120). -/
def State.skipIf (s : State) (c : Bool) : State := s.setPc (if c then s.nextPc + 2 else s.nextPc)

/-! ### Taking a fault, and reset -/

/-- A fault is taken precisely: the state is as it was before the fetch (R246), PC = pc0, and HALT latches the record (R247, R248).
Nothing is saved where a program could see it, no mode changes and PC goes nowhere (R251). -/
def State.raise (s : State) (kind : FaultKind) (opcode : Option Word) (addr : Option Nat) : State :=
  s.setHalt (some { kind := kind, pc := s.pc, opcode := opcode, addr := addr })

/-- A fault raised by the handler of `i`; the record's opcode is the word fetched, which is `encode i` (log 11). -/
def State.raiseIn (s : State) (i : Instr) (kind : FaultKind) (addr : Option Nat) : State :=
  s.raise kind (some (encode i)) addr

/-- `reset()` (R280): every piece of engine state to its reset value, the only way out of HALT (R248); there is no other return
from a fault. The parameters stay the machine's, and the inputs still to come stay what they are (log 9). -/
def State.resetEngine (s : State) : State :=
  { State.reset with
    cfg := s.cfg
    rand := s.rand
    drv := { s.drv with left := 0, fresh := true, returned := .ok } }

/-! ### The call stack (R27) -/

/-- `S[SP] <- w; SP <- SP + 1`, or none when SP = 16. -/
def State.push (s : State) (w : Word) : Option State :=
  if h : s.sp.val < 16 then some (s.setStack (s.stack.set s.sp.val w h) ⟨s.sp.val + 1, Nat.succ_lt_succ h⟩) else none

/-- `SP <- SP - 1`, answering `S[SP]`, or none when SP = 0. The slot keeps its value (R122). -/
def State.pop (s : State) : Option (Word × State) :=
  if h : 0 < s.sp.val then
    some (s.stack[s.sp.val - 1]'(by omega), s.setStack s.stack ⟨s.sp.val - 1, by omega⟩)
  else none

/-! ### Memory access (R51, R57) -/

/-- `M[a]`. -/
def State.byteAt (s : State) (a : Nat) : Byte := Memory.get s.cfg.glyphs s.mem a

/-- `CheckRead(a, len)`: the lowest offending address, if any. -/
def checkRead : Nat → Nat → Option Nat
  | _, 0 => none
  | a, len + 1 => if memSize ≤ a then some a else checkRead (a + 1) len

/-- A write to `a` raises AddressFault: outside memory, or into the glyphs under GLYPH_WRITE_POLICY = fault (R51). -/
def writeRefused (p : GlyphPolicy) (a : Nat) : Bool :=
  memSize ≤ a || (p == .fault && glyphBase ≤ a && a < glyphEnd)

/-- `CheckWrite(a, len)`: the lowest offending address, if any. -/
def checkWrite (p : GlyphPolicy) : Nat → Nat → Option Nat
  | _, 0 => none
  | a, len + 1 => if writeRefused p a then some a else checkWrite p (a + 1) len

/-- `M[a], M[a+1], …, M[a+len-1]`. -/
def State.bytesAt (s : State) (a : Nat) : Nat → List Byte
  | 0 => []
  | len + 1 => s.byteAt a :: s.bytesAt (a + 1) len

/-- A read of `len` bytes: the whole range is checked before the first access (R57). -/
def State.readBytes (s : State) (a len : Nat) : Except Nat (List Byte) :=
  match checkRead a len with
  | some bad => .error bad
  | none => .ok (s.bytesAt a len)

/-- A write of bytes at increasing addresses: the whole range is checked before the first access (R57). -/
def State.writeBytes (s : State) (a : Nat) (bs : List Byte) : Except Nat State :=
  match checkWrite s.cfg.glyphWrites a bs.length with
  | some bad => .error bad
  | none => .ok (s.setMem (Memory.setBytes s.cfg.glyphs s.mem a bs))

/-! ### The framebuffer (R30, R201) -/

/-- `FB[y mod 32][x mod 64]`: coordinates wrap per axis (R201). -/
def pixel (fb : Vector (Vector Bool 64) 32) (x y : Nat) : Bool :=
  (fb[y % 32]'(Nat.mod_lt _ (by decide)))[x % 64]'(Nat.mod_lt _ (by decide))

/-- `FB[y mod 32][x mod 64] <- 1 - FB[y mod 32][x mod 64]`. -/
def flipPixel (fb : Vector (Vector Bool 64) 32) (x y : Nat) : Vector (Vector Bool 64) 32 :=
  fb.set (y % 32)
    ((fb[y % 32]'(Nat.mod_lt _ (by decide))).set (x % 64) (!pixel fb x y) (Nat.mod_lt _ (by decide)))
    (Nat.mod_lt _ (by decide))

/-- A drawing under way: the framebuffer and the collision so far. -/
abbrev Drawing := Vector (Vector Bool 64) 32 × Bool

/-- One sprite bit: if set, its pixel is toggled, and a pixel that was on is a collision (R201). -/
def drawBit (x y : Nat) (bit : Bool) (d : Drawing) : Drawing :=
  if bit then (flipPixel d.1 x y, d.2 || pixel d.1 x y) else d

/-- The columns `col`, …, 7 of a sprite row at `(ox, y)`, most significant bit first: `todo` of them are left. -/
def drawCols (ox y : Nat) (b : Byte) : Nat → Drawing → Drawing
  | 0, d => d
  | todo + 1, d => drawCols ox y b todo (drawBit (ox + (7 - todo)) y (b.getLsbD todo) d)

/-- The sprite rows, from row `y` down (R201). -/
def drawRows (ox : Nat) : Nat → List Byte → Drawing → Drawing
  | _, [], d => d
  | y, b :: bs, d => drawRows ox (y + 1) bs (drawCols ox y b 8 d)

/-! ### The keypad and the random draw -/

/-- `K[k]` (R29). -/
def State.keyDown (s : State) (k : Reg) : Bool := s.keys[k.val]

/-- `min { k | K[k] = 1 }`, none when no key is down (R224). -/
def State.lowestKey (s : State) : Option Reg := (List.finRange 16).find? s.keyDown

/-- `draw_rand()` (R153): the next draw that is lined up, else a FREE VALUE (log 4), a fresh one each time. -/
def State.drawRand (s : State) : Byte × State :=
  match s.rand.pending with
  | r :: rest => (r, s.setRand { s.rand with pending := rest })
  | [] => (Config.randByte s.rand.draws, s.setRand { s.rand with draws := s.rand.draws + 1 })

end Sys2Proof.Machine
end

