-- ==== Sys2Proof/Machine/Operands.lean ====
section
/-! DEFINITION. The operand forms (30_encoding.md R72; 43_index_memory.md R180, R183, R184; 44_display.md R201; 45 R220). A register
operand is `State.reg`, `kk` is used as it is, `nnn` goes through `zext16`. -/

namespace Sys2Proof.Machine

/-- `V[x] & 0xF` as a key code (R220). -/
def keyCode (b : Byte) : Reg := (b.extractLsb' 0 4).toFin

/-- The effective address of byte j: `I + j`, exact, with no wrap (R180). -/
def State.effAddr (s : State) (j : Nat) : Nat := s.i.toNat + j

/-- `0x050 + 5 * (V[x] & 0xF)` (R183). -/
def glyphAddr (b : Byte) : Word := BitVec.ofNat 16 (glyphBase + 5 * (keyCode b).val)

/-- The three decimal digits of a byte, hundreds first (R184). -/
def decimalDigits (b : Byte) : List Byte :=
  [BitVec.ofNat 8 (b.toNat / 100), BitVec.ofNat 8 (b.toNat / 10 % 10), BitVec.ofNat 8 (b.toNat % 10)]

/-- `V[0], …, V[x]` (R185). -/
def State.regsUpTo (s : State) (x : Reg) : List Byte := s.v.toList.take (x.val + 1)

/-- `V[k + j] <- bs[j]` for each j in order (R186). -/
def loadRegs (k : Nat) : List Byte → Vector Byte 16 → Vector Byte 16
  | [], v => v
  | b :: bs, v => loadRegs (k + 1) bs (v.setIfInBounds k b)

/-- The sprite's origin column, `V[x] mod 64` (R201). -/
def originX (b : Byte) : Nat := b.toNat % 64

/-- The sprite's origin row, `V[y] mod 32` (R201; conflict C3). -/
def originY (b : Byte) : Nat := b.toNat % 32

end Sys2Proof.Machine
end

