-- ==== Sys2Proof/Machine/Flags.lean ====
section
/-! DEFINITION. The arithmetic of 42_alu.md R140 and its flag in VF (10_state.md R23, R24; 42_alu.md R141). Sums and differences are
exact integers, narrowed once by `mod 256`. -/

namespace Sys2Proof.Machine

/-- VF, the register that doubles as the flag (R23). -/
abbrev vf : Reg := 15

/-- `(a + b) mod 256` (R143, R148). -/
def sumByte (a b : Byte) : Byte := BitVec.ofNat 8 (a.toNat + b.toNat)

/-- The carry of 8xy4: `a + b > 255`, from the sum before truncation (R148). -/
def carry (a b : Byte) : Bool := 255 < a.toNat + b.toNat

/-- `(a - b) mod 256` (R149, R151). -/
def diffByte (a b : Byte) : Byte := BitVec.ofInt 8 ((a.toNat : Int) - (b.toNat : Int))

/-- The not-borrow of `a - b`: `a ≥ b` (R140, R149, R151). -/
def notBorrow (a b : Byte) : Bool := b.toNat ≤ a.toNat

/-- `b >> 1` (R150). -/
def shrByte (b : Byte) : Byte := b >>> 1

/-- The bit 8xy6 shifts out: bit 0 (R150). -/
def shrOut (b : Byte) : Bool := b.getLsbD 0

/-- `(b << 1) mod 256` (R152). -/
def shlByte (b : Byte) : Byte := b <<< 1

/-- The bit 8xyE shifts out: bit 7 (R152). -/
def shlOut (b : Byte) : Bool := b.getLsbD 7

/-- R141, steps 2 and 3: the result to V[x], then the flag to VF, so that for x = F the flag is VF's final value. -/
def State.setResultFlag (s : State) (x : Reg) (result : Byte) (flag : Bool) : State :=
  (s.setReg x result).setReg vf (boolByte flag)

end Sys2Proof.Machine
end

