-- ==== Sys2Proof/Machine/Display.lean ====
section
/-! DEFINITION. The meanings of 44_display.md, R200 and R201. -/

namespace Sys2Proof.Machine

/-- R200. -/
def execCls (s : State) : Host.Outcome State Fault Refusal :=
  .next (s.setFb (Vector.replicate 32 (Vector.replicate 64 false))).advance

/-- R201: the coordinates are read before the flag is written, VF after all pixels. -/
def execDrw (x y : Reg) (n : Fin 16) (s : State) : Host.Outcome State Fault Refusal :=
  match s.readBytes (s.effAddr 0) n.val with
  | .error a => .next (s.raiseIn (.drw x y n) .addressFault (some a))
  | .ok rows =>
    let d := drawRows (originX (s.reg x)) (originY (s.reg y)) rows (s.fb, false)
    .next ((s.setFb d.1).setReg vf (boolByte d.2)).advance

end Sys2Proof.Machine
end

