-- ==== Sys2Proof/Machine/IndexMemory.lean ====
section
/-! DEFINITION. The meanings of 43_index_memory.md, R181–R186. -/

namespace Sys2Proof.Machine

/-- R181. -/
def execLdI (nnn : Addr) (s : State) : Host.Outcome State Fault Refusal :=
  .next (s.setI (zext16 nnn)).advance

/-- R182: 16-bit wraparound, no flag. -/
def execAddI (x : Reg) (s : State) : Host.Outcome State Fault Refusal :=
  .next (s.setI (s.i + (s.reg x).setWidth 16)).advance

/-- R183. -/
def execLdF (x : Reg) (s : State) : Host.Outcome State Fault Refusal :=
  .next (s.setI (glyphAddr (s.reg x))).advance

/-- R184. -/
def execLdB (x : Reg) (s : State) : Host.Outcome State Fault Refusal :=
  match s.writeBytes (s.effAddr 0) (decimalDigits (s.reg x)) with
  | .error a => .next (s.raiseIn (.ldB x) .addressFault (some a))
  | .ok t => .next t.advance

/-- R185: I is unchanged. -/
def execLdStore (x : Reg) (s : State) : Host.Outcome State Fault Refusal :=
  match s.writeBytes (s.effAddr 0) (s.regsUpTo x) with
  | .error a => .next (s.raiseIn (.ldStore x) .addressFault (some a))
  | .ok t => .next t.advance

/-- R186: I is unchanged. -/
def execLdLoad (x : Reg) (s : State) : Host.Outcome State Fault Refusal :=
  match s.readBytes (s.effAddr 0) (x.val + 1) with
  | .error a => .next (s.raiseIn (.ldLoad x) .addressFault (some a))
  | .ok bs => .next (s.setV (loadRegs 0 bs s.v)).advance

end Sys2Proof.Machine
end

