-- ==== Sys2Proof/Machine/Driver.lean ====
section
/-! DEFINITION. The timer tick (60_exceptions.md R253), the outputs (R255, R257) and the driver's calls (R258): what each does at the
boundary of the engine. A step call is opened and closed here; the instructions it runs are Cycle.lean's. -/

namespace Sys2Proof.Machine

/-- One decrement with floor 0 (R253). -/
def tickByte (b : Byte) : Byte := if b = 0 then 0 else b - 1

/-- `timer_tick()` (R253). -/
def State.timerTick (s : State) : State := (s.setDt (tickByte s.dt)).setSt (tickByte s.st)

/-- `soundActive()` (R255). -/
def State.soundActive (s : State) : Bool := s.st != 0

/-- `framebuffer()` (R257): reading it changes nothing. -/
def State.framebuffer (s : State) : Vector (Vector Bool 64) 32 := s.fb

/-- The numeric codes of R240. -/
def FaultKind.code : FaultKind → Nat
  | .decodeFault => 1
  | .stackOverflow => 2
  | .stackUnderflow => 3
  | .addressFault => 4
  | .romTooLarge => 5

/-- The code of a returned status (R240). -/
def Status.code : Status → Nat
  | .ok => 0
  | .halted r => r.kind.code
  | .romTooLarge => FaultKind.romTooLarge.code

/-- A call returns `st` and no step call is running any more. -/
def State.returning (s : State) (st : Status) : State := s.setDrv { s.drv with left := 0, returned := st }

/-- The end of a step call that met no fault: one tick, then Ok (R100). -/
def State.endStep (s : State) : State := s.timerTick.returning .ok

/-- The beginning of `step(n)` (R100): a halted engine returns its fault; with n = 0 only the tick happens (decision D19); else n
instructions are to run. From here on a loadRom has no prior reset (R282). -/
def State.beginStep (s : State) (n : Nat) : State :=
  let t := s.setDrv { s.drv with fresh := false }
  match s.halt with
  | some r => t.returning (.halted r)
  | none => if n = 0 then t.endStep else t.setDrv { t.drv with left := n }

/-- After one `execute_one` of a step call, with `n` more to run (R100): a fault ends the call with no tick. -/
def State.endSlot (s : State) (n : Nat) : State :=
  match s.halt with
  | some r => s.returning (.halted r)
  | none => if n = 0 then s.endStep else s.setDrv { s.drv with left := n }

/-- `loadRom(bytes)` for an image that fits (R282): only `M[0x200 .. 0x200+L-1]` is written. -/
def State.storeRom (s : State) (bytes : List Byte) : State :=
  s.setMem (Memory.setBytes s.cfg.glyphs s.mem romBase bytes)

/-- `loadRom(bytes)` (R282, R245). With no prior reset the spec states no result (D21, U15), unless the image is too large. -/
def loadRom (bytes : List Byte) (s : State) : Host.Outcome State Fault Refusal :=
  if romWellFormed bytes then
    if s.drv.fresh then .next ((s.storeRom bytes).returning .ok) else .refused .loadRomWithoutReset
  else .next (s.returning .romTooLarge)

/-- One driver call, made while no step call is running (R258). -/
def perform (c : DriverCall) (s : State) : Host.Outcome State Fault Refusal :=
  match c with
  | .reset => .next s.resetEngine
  | .loadRom bytes => loadRom bytes s
  | .setKeys k => .next (s.setKeys k)
  | .step n => .next (s.beginStep n)

/-- The driver's next call: the next one lined up, else a FREE VALUE (log 5). -/
def State.nextCall (s : State) : DriverCall × State :=
  match s.drv.script with
  | c :: rest => (c, s.setDrv { s.drv with script := rest })
  | [] => (Config.driverCall s.drv.calls, s.setDrv { s.drv with calls := s.drv.calls + 1 })

/-- The driver's turn: it makes its next call. -/
def driverTurn (s : State) : Host.Outcome State Fault Refusal := perform s.nextCall.1 s.nextCall.2

end Sys2Proof.Machine
end

