-- ==== Sys2Proof/Machine/Cycle.lean ====
section
/-! DEFINITION. Fetch, decode and dispatch of one instruction (40_cycle.md R101), one instruction slot of a running step call, and the
step call as a whole, read straight off R100. -/

namespace Sys2Proof.Machine

/-- The fetch window (R101, decision D8). -/
def State.inWindow (s : State) : Bool := s.cfg.pcMin ≤ s.pc && s.pc ≤ pcMax

/-- The two bytes at PC, big-endian (R55, R101). -/
def State.wordAtPc (s : State) : Word := wordOfBytes (s.byteAt s.pc.toNat) (s.byteAt (s.pc.toNat + 1))

/-- `execute_one()` (R101): window, then decode, then the handler's own check (R249). -/
def executeOne (s : State) : Host.Outcome State Fault Refusal :=
  if s.inWindow then
    match decode s.wordAtPc with
    | .ok i => exec i s
    | .error _ => .next (s.raise .decodeFault (some s.wordAtPc) none)
  else .next (s.raise .addressFault none (some s.pc.toNat))

/-- What follows a next state; the other outcomes stay. -/
def andThen (o : Host.Outcome State Fault Refusal) (f : State → Host.Outcome State Fault Refusal) :
    Host.Outcome State Fault Refusal :=
  match o with
  | .next t => f t
  | .fault r => .fault r
  | .refused r => .refused r

/-- One instruction slot of a running step call, with `n` more to run after it (R100, R105). -/
def runSlot (n : Nat) (s : State) : Host.Outcome State Fault Refusal :=
  match s.halt with
  | some _ => .fault .haltedMidStep
  | none => andThen (executeOne s) fun t => .next (t.endSlot n)

/-- The loop of `step(N)` (R100): `n` times `execute_one`, stopping at a fault, then one tick. -/
def runStep : Nat → State → Host.Outcome State Fault Refusal
  | 0, s => .next s.endStep
  | n + 1, s => andThen (executeOne s) fun t =>
      match t.halt with
      | some r => .next (t.returning (.halted r))
      | none => runStep n t

/-- The whole of a `step(N)` call (R100), as the driver sees it: one atomic operation. -/
def stepCall (n : Nat) (s : State) : Host.Outcome State Fault Refusal :=
  let t := s.setDrv { s.drv with fresh := false }
  match s.halt with
  | some r => .next (t.returning (.halted r))
  | none => runStep n t

/-- `s` made ready to fetch: not halted, inside a step call, and with PC in the fetch window. What it has already stays. -/
def State.readyToFetch (s : State) : State :=
  let t := s.setHalt none
  let u := if t.inWindow then t else t.setPc t.cfg.pcMin
  if u.drv.left = 0 then u.setDrv { u.drv with left := 1 } else u

/-- The bytes of an instruction put where the next fetch reads them (R55, R101). -/
def State.placeAtPc (s : State) (bytes : List Byte) : State :=
  s.setMem (Memory.setBytes s.cfg.glyphs s.mem s.pc.toNat bytes)

end Sys2Proof.Machine
end

