-- ==== Sys2Proof/Machine/Step.lean ====
section
/-! DEFINITION. One step of the machine: the next instruction of the running step call or, when none is running, the driver's
next call (40_cycle.md R100, R103; 60_exceptions.md R258; log 6). -/

namespace Sys2Proof.Machine

def step (s : State) : Host.Outcome State Fault Refusal :=
  match s.drv.left with
  | 0 => driverTurn s
  | n + 1 => runSlot n s

/-- `s` with the instruction of an opcode-table row stored at PC, big-endian (R55), and ready to fetch it: an instruction runs only
inside a step call of an engine that is not halted (log 6). -/
def State.withFetchWord (s : State) (nbits w : Nat) : State :=
  s.readyToFetch.placeAtPc [highByte (tableWord nbits w), lowByte (tableWord nbits w)]

end Sys2Proof.Machine
end

