-- ==== Sys2Proof/Safety.lean ====
section
/-! DEFINITION. What holds of every state a run reaches, and the vocabulary of the frames: which pieces of the state two states agree on. -/

namespace Sys2Proof.Machine

/-- Memory is in canonical form. The addresses are those of 20_memory.md R50; the form itself, sorted cells that differ from the reset
contents, is the model's choice (log 13). -/
def MemoryCanonical (s : State) : Prop := Memory.wf s.cfg.glyphs s.mem = true

/-- PC never overflows: the largest value a handler can write is 0x10FE (10_state.md R26); and every stack slot holds an address
CALL can have pushed, at most 0x1000 (41_control_flow.md R122). -/
def AddressesBounded (s : State) : Prop :=
  s.pc.toNat ≤ 0x10FE ∧ ∀ j : Fin 16, s.stack[j.val].toNat ≤ 0x1000

/-- The fault latch is consistent: a latched record is of a kind `step` raises and its pc is where PC was left (60_exceptions.md
R245, R246, R247), its addr is there exactly for an AddressFault (R247), and no step call is running (40_cycle.md R100). -/
def HaltConsistent (s : State) : Prop :=
  match s.halt with
  | none => True
  | some r => r.pc = s.pc ∧ r.kind ≠ .romTooLarge ∧ (r.addr.isSome = true ↔ r.kind = .addressFault) ∧ s.drv.left = 0

/-- A state a run can go on from: all of the above. -/
def Consistent (s : State) : Prop := MemoryCanonical s ∧ AddressesBounded s ∧ HaltConsistent s

/-- A V register other than those listed holds what it held. -/
def RegsAgreeBut (written : List Reg) (s t : State) : Prop := ∀ r, r ∉ written → t.reg r = s.reg r

/-- Every byte of memory reads as it did. -/
def MemoryAgrees (s t : State) : Prop := ∀ a, t.byteAt a = s.byteAt a

/-- Every byte outside `[base, base + len)` reads as it did. -/
def MemoryAgreesOutside (base len : Nat) (s t : State) : Prop :=
  ∀ a, (a < base ∨ base + len ≤ a) → t.byteAt a = s.byteAt a

/-- The call stack, slots and pointer, is unchanged. -/
def StackAgrees (s t : State) : Prop := t.stack = s.stack ∧ t.sp = s.sp

/-- Both timers are unchanged. -/
def TimersAgree (s t : State) : Prop := t.dt = s.dt ∧ t.st = s.st

/-- The keypad latch, the fault latch, the parameters and the driver's side are unchanged. -/
def OutsideAgrees (s t : State) : Prop := t.keys = s.keys ∧ t.halt = s.halt ∧ t.cfg = s.cfg ∧ t.drv = s.drv

/-- An instruction that writes no more than PC and the V registers listed. -/
def OnlyRegsChange (written : List Reg) (s t : State) : Prop :=
  RegsAgreeBut written s t ∧ t.i = s.i ∧ MemoryAgrees s t ∧ StackAgrees s t ∧ TimersAgree s t ∧ t.fb = s.fb ∧
    OutsideAgrees s t ∧ t.rand = s.rand

/-- CheckRead of the range passes (20_memory.md R51). -/
def Readable (base len : Nat) : Prop := ∀ a, base ≤ a → a < base + len → a ≤ 0xFFF

/-- A write to `a` raises AddressFault (20_memory.md R51): outside memory, or into protected glyphs. -/
def WriteFaults (s : State) (a : Nat) : Prop := 0xFFF < a ∨ (s.cfg.glyphWrites = .fault ∧ 0x050 ≤ a ∧ a ≤ 0x09F)

/-- CheckWrite of the range passes (20_memory.md R51). -/
def Writable (s : State) (base len : Nat) : Prop := ∀ a, base ≤ a → a < base + len → ¬ WriteFaults s a

/-- CheckRead of the range raises AddressFault(addr = bad): the lowest address of the range outside memory (20_memory.md R51). -/
def FirstReadFault (base len bad : Nat) : Prop :=
  base ≤ bad ∧ bad < base + len ∧ 0xFFF < bad ∧ ∀ a, base ≤ a → a < bad → a ≤ 0xFFF

/-- CheckWrite of the range raises AddressFault(addr = bad): the lowest address of the range that may not be written
(20_memory.md R51). -/
def FirstWriteFault (s : State) (base len bad : Nat) : Prop :=
  base ≤ bad ∧ bad < base + len ∧ WriteFaults s bad ∧ ∀ a, base ≤ a → a < bad → ¬ WriteFaults s a

end Sys2Proof.Machine
end

