-- ==== Sys2Proof/Certificates/Slice0/Obligations.lean ====
section
/-! DEFINITION. The statements for the provers, each from the numbered rules of spec/. A meaning is read through `exec i s`, where `s` has
PC = pc0; `Encoded` is the encoding line of an instruction rule, `OnlyRegsChange` and its parts (Safety.lean) are the frames. -/

open Sys2Proof Sys2Proof.Machine

/-- The encoding line of an instruction rule: the word of `i` is the match under the mask (30_encoding.md R73). -/
def Sys2Proof.Encoded (i : Instr) (code mask : Word) : Prop := encode i &&& mask = code

/-- Running instructions one after another by their meanings, with the PC after each. -/
def Sys2Proof.runList : List Instr → State → Option (State × List Word)
  | [], s => some (s, [])
  | i :: is, s =>
    match exec i s with
    | .next t => (Sys2Proof.runList is t).map fun (u, pcs) => (u, t.pc :: pcs)
    | _ => none

/-- R201: the bit of the sprite at I that `DRW Vx, Vy, n` puts at column px, row py, coordinates wrapping per axis. -/
def Sys2Proof.spriteBit (s : State) (x y : Reg) (n px py : Nat) : Bool :=
  let row := (py + 32 - (s.reg y).toNat % 32) % 32
  let col := (px + 64 - (s.reg x).toNat % 64) % 64
  decide (row < n) && decide (col < 8) && (s.byteAt (s.i.toNat + row)).getLsbD (7 - col)

/-! ### Encoding -/

/-- Decoding what an instruction assembles to gives it back, with every operand at every value (R70, R73, R76, R78). -/
def Obligations.DecodeInvertsEncode : Prop := ∀ i : Instr, decode (encode i) = .ok i

/-- A word that decodes is the word its instruction assembles to: no bit of it is dropped (R70, R76, R78). -/
def Obligations.EncodeInvertsDecode : Prop := ∀ (op : Word) (i : Instr), decode op = .ok i → encode i = op

/-- The decoding procedure of R76 accepts exactly the words the rows of R73 cover; every other word is illegal (R74, R75). -/
def Obligations.DecoderAcceptsExactlyTheOpcodeMap : Prop :=
  ∀ op : Word, (wordWellFormed op = true → ∃ i, decode op = .ok i ∧ i.row.covers op = true) ∧
    (wordWellFormed op = false → decode op = .error (.illegal op))

/-- No two rows of R73 match the same word. -/
def Obligations.OpcodeRowsNeverOverlap : Prop :=
  opcodeMap.length = 34 ∧ ∀ op : Word, (opcodeMap.filter (·.covers op)).length ≤ 1

/-- Words written out bit by bit from the encodings of R73 decode to the instructions they stand for; words of R74 do not decode. -/
def Obligations.SpecWordsDecode : Prop :=
  decode 0b0000000011100000 = .ok .cls ∧ decode 0b0001001010100100 = .ok (.jp 0x2A4) ∧
  decode 0b0011001100010010 = .ok (.seImm 3 0x12) ∧ decode 0b1000111100010100 = .ok (.addReg 15 1) ∧
  decode 0b1010000100100011 = .ok (.ldI 0x123) ∧ decode 0b1101101010110001 = .ok (.drw 10 11 1) ∧
  decode 0b1110001010011110 = .ok (.skp 2) ∧ decode 0b1111001101100101 = .ok (.ldLoad 3) ∧
  decode 0b0000000111100000 = .error (.illegal 0x01E0) ∧ decode 0b1000000000001000 = .error (.illegal 0x8008)

/-! ### Fetch, faults, and the running step call -/

/-- R101: inside a step call of an engine that is not halted, with PC in the fetch window, the two bytes at PC (big-endian, R55)
that decode to `i` make the step `exec i`, followed by the end of the slot (`SlotEndsAsTheStepCallSays` says what that is).
That one machine step is one instruction slot is the model's choice (log 6). -/
def Obligations.StepRunsTheFetchedInstruction : Prop :=
  ∀ (s : State) (n : Nat) (i : Instr), s.drv.left = n + 1 → s.halt = none → s.cfg.pcMin ≤ s.pc → s.pc ≤ 0xFFE →
    decodeBytes [s.byteAt s.pc.toNat, s.byteAt (s.pc.toNat + 1)] = .ok (i, []) →
    step s = match exec i s with
      | .next t => .next (t.endSlot n)
      | .fault r => .fault r
      | .refused r => .refused r

/-- R241: an illegal word in the fetch window raises DecodeFault, with opcode = op and pc = pc0; nothing else changes. -/
def Obligations.IllegalWordRaisesDecodeFault : Prop :=
  ∀ s : State, s.cfg.pcMin ≤ s.pc → s.pc ≤ 0xFFE →
    wordWellFormed (wordOfBytes (s.byteAt s.pc.toNat) (s.byteAt (s.pc.toNat + 1))) = false →
    executeOne s = .next { s with halt := some { kind := .decodeFault, pc := s.pc, addr := none, opcode := some (wordOfBytes (s.byteAt s.pc.toNat) (s.byteAt (s.pc.toNat + 1))) } }

/-- R101, R244: a fetch outside [PC_MIN, 0xFFE] raises AddressFault with addr = pc0 and no opcode; nothing else changes. -/
def Obligations.FetchOutsideTheWindowFaults : Prop :=
  ∀ s : State, (s.pc < s.cfg.pcMin ∨ 0xFFE < s.pc) →
    executeOne s = .next { s with halt := some { kind := .addressFault, pc := s.pc, opcode := none, addr := some s.pc.toNat } }

/-- R246: when `execute_one` raises a fault, the state is what it was before the fetch, but for the latch. -/
def Obligations.FaultsArePrecise : Prop :=
  ∀ (s t : State) (r : FaultRecord), s.halt = none → executeOne s = .next t → t.halt = some r → t = { s with halt := some r }

/-- R247: pc is pc0; opcode is the fetched word, or none for a fetch-window fault; addr is there exactly for an AddressFault; and
RomTooLarge is never raised by an instruction (R245). -/
def Obligations.FaultRecordSaysWhatHappened : Prop :=
  ∀ (s t : State) (r : FaultRecord), s.halt = none → executeOne s = .next t → t.halt = some r →
    r.pc = s.pc ∧ (r.addr.isSome = true ↔ r.kind = .addressFault) ∧ r.kind ≠ .romTooLarge ∧
    (s.cfg.pcMin ≤ s.pc ∧ s.pc ≤ 0xFFE →
      r.opcode = some (wordOfBytes (s.byteAt s.pc.toNat) (s.byteAt (s.pc.toNat + 1)))) ∧
    (s.pc < s.cfg.pcMin ∨ 0xFFE < s.pc → r.opcode = none)

/-- R242, R243, R244, R249: after decode, only CALL with SP = 16, RET with SP = 0, and Dxyn (n > 0), Fx33, Fx55, Fx65 raise a fault. -/
def Obligations.OnlyTheseInstructionsFault : Prop :=
  ∀ (i : Instr) (s t : State) (r : FaultRecord), s.halt = none → exec i s = .next t → t.halt = some r →
    (r.kind = .stackOverflow ∧ s.sp = 16 ∧ ∃ nnn, i = .call nnn) ∨
    (r.kind = .stackUnderflow ∧ s.sp = 0 ∧ i = .ret) ∨
    (r.kind = .addressFault ∧
      ((∃ x y n, i = .drw x y n ∧ n ≠ 0) ∨ (∃ x, i = .ldB x) ∨ (∃ x, i = .ldStore x) ∨ (∃ x, i = .ldLoad x)))

/-- R252: every instruction may run at any time; none stops the model. -/
def Obligations.EveryInstructionAnswersANextState : Prop := ∀ (i : Instr) (s : State), ∃ t, exec i s = .next t

/-- R102: where PC is left. -/
def Obligations.PcIsLeftWhereTheTableSays : Prop :=
  ∀ (i : Instr) (s t : State), s.halt = none → exec i s = .next t →
    t.pc = if t.halt ≠ none then s.pc else
      match i with
      | .jp nnn => zext16 nnn
      | .call nnn => zext16 nnn
      | .jpV0 nnn => zext16 nnn + (s.reg 0).setWidth 16
      | .ret => s.stack.toList.getD (s.sp.val - 1) 0
      | .seImm x kk => if s.reg x = kk then s.pc + 4 else s.pc + 2
      | .sneImm x kk => if s.reg x ≠ kk then s.pc + 4 else s.pc + 2
      | .seReg x y => if s.reg x = s.reg y then s.pc + 4 else s.pc + 2
      | .sneReg x y => if s.reg x ≠ s.reg y then s.pc + 4 else s.pc + 2
      | .skp x => if s.keyDown (keyCode (s.reg x)) = true then s.pc + 4 else s.pc + 2
      | .sknp x => if s.keyDown (keyCode (s.reg x)) = false then s.pc + 4 else s.pc + 2
      | .ldVxK _ => if ∀ k, s.keyDown k = false then s.pc else s.pc + 2
      | _ => s.pc + 2

/-- R100, R249, R253: what follows an instruction of a step call. A fault ends the call at once, with no tick; the last instruction
is followed by one tick, each timer one less but never below 0; any other by the next instruction.
That a slot is a machine step, and the fields of `drv`, are the model's choice (logs 6, 10). -/
def Obligations.SlotEndsAsTheStepCallSays : Prop :=
  ∀ (s u : State) (n : Nat), s.drv.left = n + 1 → s.halt = none → executeOne s = .next u →
    ∃ t, step s = .next t ∧
      match u.halt with
      | some r => t = { u with drv := { u.drv with left := 0, returned := .halted r } }
      | none =>
        if n = 0 then
          t.dt.toNat = u.dt.toNat - 1 ∧ t.st.toNat = u.st.toNat - 1 ∧
            t = { u with dt := t.dt, st := t.st, drv := { u.drv with left := 0, returned := .ok } }
        else t = { u with drv := { u.drv with left := n } }

/-- R100: the driver's `step(N)` call, run by the machine one instruction at a time, ends within N instructions in exactly the
state the pseudocode of R100 gives. The division into machine steps is the model's choice (log 6). -/
def Obligations.MachineRunsTheWholeStepCall : Prop :=
  ∀ (s : State) (n : Nat) (rest : List DriverCall), s.drv.left = 0 → s.drv.script = .step n :: rest →
    ∃ t k, stepCall n { s with drv := { s.drv with script := rest } } = .next t ∧ k ≤ n ∧
      Host.Core.run core (k + 1) s = .next t

/-- R105 (V76): a step of N instructions at an Fx0A with no key down runs Fx0A N times, ends with PC where it was, and ticks once.
The fields of `drv` are the model's choice (logs 6, 8, 10). -/
def Obligations.WaitingForAKeyUsesUpTheStep : Prop :=
  ∀ (x : Reg) (n : Nat) (s : State), s.halt = none → s.cfg.pcMin ≤ s.pc → s.pc ≤ 0xFFE → decode s.wordAtPc = .ok (.ldVxK x) →
    (∀ k : Reg, s.keys[k.val] = false) →
    ∃ t, stepCall n s = .next t ∧ t.dt.toNat = s.dt.toNat - 1 ∧ t.st.toNat = s.st.toNat - 1 ∧
      t = { s with dt := t.dt, st := t.st, drv := { s.drv with left := 0, fresh := false, returned := .ok } }

/-- Decision D19 (R100): `step(0)` runs nothing and ticks once. The fields of `drv` are the model's choice (logs 6, 8, 10). -/
def Obligations.StepZeroOnlyTicks : Prop :=
  ∀ (s : State) (rest : List DriverCall), s.drv.left = 0 → s.halt = none → s.drv.script = .step 0 :: rest →
    ∃ t, step s = .next t ∧ t.dt.toNat = s.dt.toNat - 1 ∧ t.st.toNat = s.st.toNat - 1 ∧
      t = { s with dt := t.dt, st := t.st, drv := { s.drv with script := rest, fresh := false, returned := .ok } }

/-- R248: a halted engine runs no instruction and ticks no timer; `step(N)` returns the latched fault. The fields of
`drv` are the model's choice (logs 6, 8, 10). -/
def Obligations.HaltedEngineRunsNothing : Prop :=
  ∀ (s : State) (n : Nat) (rest : List DriverCall) (r : FaultRecord), s.halt = some r → s.drv.left = 0 →
    s.drv.script = .step n :: rest →
    step s = .next { s with drv := { s.drv with script := rest, fresh := false, returned := .halted r } }

/-- R248: only `reset()` clears HALT, whatever the driver calls. -/
def Obligations.OnlyResetClearsHalt : Prop :=
  ∀ (s t : State) (r : FaultRecord), s.halt = some r → HaltConsistent s → step s = .next t →
    (t.halt = some r ∧ t.pc = s.pc ∧ t.v = s.v ∧ t.i = s.i ∧ t.dt = s.dt ∧ t.st = s.st) ∨
      (s.nextCall.1 = .reset ∧ t.halt = none)

/-! ### Invariants -/

/-- Every step keeps memory in its canonical form: cells rise by address, lie in 0x000–0xFFF and differ from the reset contents. R50
gives the range of addresses; the sorted list of cells that differ from the reset contents is the model's choice of form (log 13). -/
def Obligations.MemoryStaysCanonical : Prop :=
  ∀ s t : State, MemoryCanonical s → step s = .next t → MemoryCanonical t

/-- R26, R122: PC never exceeds 0x10FE and no stack slot exceeds 0x1000, whatever runs. -/
def Obligations.PcAndReturnAddressesStayBounded : Prop :=
  ∀ s t : State, AddressesBounded s → step s = .next t → AddressesBounded t

/-- R100, R245, R246, R247: while a fault is latched no step call runs, PC is the record's pc, and the record's kind is one an
instruction can raise. -/
def Obligations.HaltLatchStaysConsistent : Prop :=
  ∀ s t : State, HaltConsistent s → step s = .next t → HaltConsistent t

/-- The invariants hold right after reset (R32). The canonical form of memory among them is the model's choice (log 13). -/
def Obligations.ResetStateIsConsistent : Prop := Consistent State.reset

/-! ### The driver's calls -/

/-- R280, R32: `reset()` gives every piece of engine state its reset value, from any state, and clears HALT. That `cfg`, `rand`
and the script are kept is the model's choice (log 9). -/
def Obligations.ResetGivesEveryResetValue : Prop :=
  ∀ (s : State) (rest : List DriverCall), s.drv.left = 0 → s.drv.script = .reset :: rest →
    ∃ t, step s = .next t ∧ (∀ r, t.reg r = 0) ∧ t.i = 0 ∧ t.pc = 0x200 ∧ t.sp = 0 ∧ (∀ j : Fin 16, t.stack[j.val] = 0) ∧
      t.dt = 0 ∧ t.st = 0 ∧ (∀ k, t.keyDown k = false) ∧ (∀ x y, pixel t.fb x y = false) ∧ t.halt = none ∧
      (∀ a, (a < 0x050 ∨ 0x09F < a) → t.byteAt a = 0) ∧
      (∀ (d : Fin 16) (r : Fin 5), t.byteAt (0x050 + 5 * d.val + r.val) = s.cfg.glyphs[d.val][r.val]) ∧
      t.cfg = s.cfg ∧ t.rand = s.rand ∧ t.drv.script = rest

/-- R282, R245: after a reset, an image of at most 3584 bytes is copied to 0x200 upward and nothing else changes; a longer one is
RomTooLarge, which writes nothing and does not set HALT. What counts as a reset before, and the fields of `drv`, are the model's choice
(logs 8, 10). -/
def Obligations.LoadRomStoresOrRejectsTheImage : Prop :=
  ∀ (s : State) (bytes : List Byte) (rest : List DriverCall), s.drv.left = 0 → s.drv.script = .loadRom bytes :: rest →
    (bytes.length ≤ 3584 → s.drv.fresh = true →
      ∃ t, step s = .next t ∧
        (∀ a, t.byteAt a = if 0x200 ≤ a ∧ a < 0x200 + bytes.length then bytes.getD (a - 0x200) 0 else s.byteAt a) ∧
        t = { s with mem := t.mem, drv := { s.drv with script := rest, returned := .ok } }) ∧
    (3584 < bytes.length → step s = .next { s with drv := { s.drv with script := rest, returned := .romTooLarge } })

/-- Decision D21, U15 (log 8): the model has no transition for a load, of an image that fits, that no reset preceded. -/
def Obligations.LoadRomWithoutResetIsRefused : Prop :=
  ∀ (s : State) (bytes : List Byte) (rest : List DriverCall), s.drv.left = 0 → s.drv.script = .loadRom bytes :: rest →
    bytes.length ≤ 3584 → s.drv.fresh = false → step s = .refused .loadRomWithoutReset

/-- R256: `setKeys(k)` overwrites the whole latch at once and nothing else. The script is the model's choice (log 5). -/
def Obligations.SetKeysOverwritesTheLatch : Prop :=
  ∀ (s : State) (k : Vector Bool 16) (rest : List DriverCall), s.drv.left = 0 → s.drv.script = .setKeys k :: rest →
    step s = .next { s with keys := k, drv := { s.drv with script := rest } }

/-- R29, R104, R286: no step of a running step call changes the keypad latch, and outside one only setKeys and reset do. -/
def Obligations.KeysChangeOnlyBetweenStepCalls : Prop :=
  ∀ s t : State, step s = .next t →
    t.keys = s.keys ∨ (s.drv.left = 0 ∧ ((∃ k, s.nextCall.1 = .setKeys k) ∨ s.nextCall.1 = .reset))

/-! ### Which instructions write what -/

/-- R22, R24: an instruction writes no V register but those R22 lists for it. -/
def Obligations.RegistersWrittenAreTheListedOnes : Prop :=
  ∀ (i : Instr) (s t : State), exec i s = .next t → ∀ r : Reg,
    (match i with
      | .ldImm x _ => r ≠ x
      | .addImm x _ => r ≠ x
      | .ldReg x _ => r ≠ x
      | .orReg x _ => r ≠ x
      | .andReg x _ => r ≠ x
      | .xorReg x _ => r ≠ x
      | .addReg x _ => r ≠ x ∧ r ≠ 15
      | .sub x _ => r ≠ x ∧ r ≠ 15
      | .shr x _ => r ≠ x ∧ r ≠ 15
      | .subn x _ => r ≠ x ∧ r ≠ 15
      | .shl x _ => r ≠ x ∧ r ≠ 15
      | .rnd x _ => r ≠ x
      | .drw _ _ _ => r ≠ 15
      | .ldVxDt x => r ≠ x
      | .ldVxK x => r ≠ x
      | .ldLoad x => x < r
      | _ => True) →
    t.reg r = s.reg r

/-- R25: I is written by Annn, Fx1E and Fx29 alone. -/
def Obligations.OnlyThreeInstructionsWriteI : Prop :=
  ∀ (i : Instr) (s t : State), exec i s = .next t →
    t.i = s.i ∨ (∃ nnn, i = .ldI nnn) ∨ (∃ x, i = .addI x) ∨ (∃ x, i = .ldF x)

/-- R27, of writes: no instruction but CALL changes a slot of S, and none but CALL and RET changes SP. -/
def Obligations.OnlyCallAndRetChangeTheStack : Prop :=
  ∀ (i : Instr) (s t : State), exec i s = .next t →
    (t.stack = s.stack ∨ ∃ nnn, i = .call nnn) ∧ (t.sp = s.sp ∨ (∃ nnn, i = .call nnn) ∨ i = .ret)

/-- R28: DT is written by Fx15 alone and ST by Fx18 alone; no other instruction changes a timer. -/
def Obligations.OnlyTheirLoadsWriteTheTimers : Prop :=
  ∀ (i : Instr) (s t : State), exec i s = .next t →
    (t.dt = s.dt ∨ ∃ x, i = .ldDtVx x) ∧ (t.st = s.st ∨ ∃ x, i = .ldStVx x)

/-- R30: the framebuffer is written by 00E0 and Dxyn alone. -/
def Obligations.OnlyClsAndDrwWriteTheFramebuffer : Prop :=
  ∀ (i : Instr) (s t : State), exec i s = .next t → t.fb = s.fb ∨ i = .cls ∨ ∃ x y n, i = .drw x y n

/-- R50: memory is written by Fx33 and Fx55 alone, Fx33 only at I, I+1, I+2 and Fx55 only at I .. I+x; every other byte reads as it did. -/
def Obligations.OnlyTheTwoStoresWriteMemory : Prop :=
  ∀ (i : Instr) (s t : State), exec i s = .next t →
    (match i with
      | .ldB _ => MemoryAgreesOutside s.i.toNat 3 s t
      | .ldStore x => MemoryAgreesOutside s.i.toNat (x.val + 1) s t
      | _ => MemoryAgrees s t)

/-- R21, R29, R31, R258: no instruction writes the keypad latch, the parameters or the driver's side; only Cxkk takes a draw. -/
def Obligations.NoInstructionReachesTheDriverSide : Prop :=
  ∀ (i : Instr) (s t : State), exec i s = .next t →
    t.keys = s.keys ∧ t.cfg = s.cfg ∧ t.drv = s.drv ∧ (t.rand = s.rand ∨ ∃ x kk, i = .rnd x kk)

/-- R51: under GLYPH_WRITE_POLICY = fault no instruction changes a glyph byte. -/
def Obligations.ProtectedGlyphsNeverChange : Prop :=
  ∀ (i : Instr) (s t : State), s.cfg.glyphWrites = .fault → exec i s = .next t →
    ∀ a, 0x050 ≤ a → a ≤ 0x09F → t.byteAt a = s.byteAt a

/-! ### Control flow -/

/-- R120, R125, R126: SE and SNE with an immediate skip to pc0 + 4 or go on to pc0 + 2; nothing else changes. -/
def Obligations.ImmediateSkips : Prop :=
  ∀ (x : Reg) (kk : Byte) (s : State),
    Encoded (.seImm x kk) 0x3000 0xF000 ∧ Encoded (.sneImm x kk) 0x4000 0xF000 ∧
    exec (.seImm x kk) s = .next { s with pc := if s.reg x = kk then s.pc + 4 else s.pc + 2 } ∧
    exec (.sneImm x kk) s = .next { s with pc := if s.reg x = kk then s.pc + 2 else s.pc + 4 }

/-- R120, R127, R128: SE and SNE with two registers; nothing but PC changes. -/
def Obligations.RegisterSkips : Prop :=
  ∀ (x y : Reg) (s : State),
    Encoded (.seReg x y) 0x5000 0xF00F ∧ Encoded (.sneReg x y) 0x9000 0xF00F ∧
    exec (.seReg x y) s = .next { s with pc := if s.reg x = s.reg y then s.pc + 4 else s.pc + 2 } ∧
    exec (.sneReg x y) s = .next { s with pc := if s.reg x = s.reg y then s.pc + 2 else s.pc + 4 }

/-- R123, R129: JP goes to nnn, JP V0 to the exact sum nnn + V0, 0 to 0x10FE; nothing but PC changes. -/
def Obligations.JumpTargets : Prop :=
  ∀ (nnn : Addr) (s : State),
    Encoded (.jp nnn) 0x1000 0xF000 ∧ Encoded (.jpV0 nnn) 0xB000 0xF000 ∧
    (∃ t, exec (.jp nnn) s = .next t ∧ t.pc.toNat = nnn.toNat ∧ t = { s with pc := t.pc }) ∧
    (∃ t, exec (.jpV0 nnn) s = .next t ∧ t.pc.toNat = nnn.toNat + (s.reg 0).toNat ∧ t = { s with pc := t.pc })

/-- R124, R242: CALL pushes pc0 + 2 and goes to nnn; with SP = 16 it raises StackOverflow, nothing pushed. -/
def Obligations.CallPushesTheReturnAddress : Prop :=
  ∀ (nnn : Addr) (s : State), Encoded (.call nnn) 0x2000 0xF000 ∧
    (∀ h : s.sp.val < 16, ∃ t, exec (.call nnn) s = .next t ∧ t.pc.toNat = nnn.toNat ∧ t.sp.val = s.sp.val + 1 ∧
      (∀ j : Fin 16, t.stack[j.val] = if j.val = s.sp.val then s.pc + 2 else s.stack[j.val]) ∧
      t = { s with pc := t.pc, sp := t.sp, stack := t.stack }) ∧
    (s.sp.val = 16 → exec (.call nnn) s =
      .next { s with halt := some { kind := .stackOverflow, pc := s.pc, opcode := some (encode (.call nnn)), addr := none } })

/-- R122, R243: RET pops the most recent return address into PC, the slots keeping their values; with SP = 0 it raises StackUnderflow. -/
def Obligations.RetPopsTheReturnAddress : Prop :=
  ∀ s : State, Encoded .ret 0x00EE 0xFFFF ∧
    (0 < s.sp.val → ∃ t, exec .ret s = .next t ∧ t.sp.val = s.sp.val - 1 ∧
      (∀ j : Fin 16, j.val = s.sp.val - 1 → t.pc = s.stack[j.val]) ∧ t = { s with pc := t.pc, sp := t.sp }) ∧
    (s.sp.val = 0 → exec .ret s =
      .next { s with halt := some { kind := .stackUnderflow, pc := s.pc, opcode := some 0x00EE, addr := none } })

/-- R27, R122, R124 (the source's CALL/RET property, E2): as many RETs as nested CALLs, no more than the free slots, go back through
the addresses after the CALLs in reverse order and leave SP and the slots below it as they were. -/
def Obligations.NestedCallsReturnInReverseOrder : Prop :=
  ∀ (targets : List Addr) (s : State), s.sp.val + targets.length ≤ 16 →
    ∃ t u, runList (targets.map .call) s = some (t, targets.map zext16) ∧
      runList (List.replicate targets.length .ret) t =
        some (u, (((s.pc :: targets.map zext16).take targets.length).map (· + 2)).reverse) ∧
      u.sp = s.sp ∧ (∀ j : Fin 16, j.val < s.sp.val → u.stack[j.val] = s.stack[j.val])

/-! ### Arithmetic and logic -/

/-- R142, R144–R147: the loads and the bitwise operations write Vx with the value given, no flag, and go on at pc0 + 2. -/
def Obligations.LoadsAndLogic : Prop :=
  ∀ (x y : Reg) (kk : Byte) (s : State),
    Encoded (.ldImm x kk) 0x6000 0xF000 ∧ Encoded (.ldReg x y) 0x8000 0xF00F ∧ Encoded (.orReg x y) 0x8001 0xF00F ∧
    Encoded (.andReg x y) 0x8002 0xF00F ∧ Encoded (.xorReg x y) 0x8003 0xF00F ∧
    (∃ t, exec (.ldImm x kk) s = .next t ∧ t.reg x = kk ∧ t.pc = s.pc + 2 ∧ OnlyRegsChange [x] s t) ∧
    (∃ t, exec (.ldReg x y) s = .next t ∧ t.reg x = s.reg y ∧ t.pc = s.pc + 2 ∧ OnlyRegsChange [x] s t) ∧
    (∃ t, exec (.orReg x y) s = .next t ∧ (∀ b, (t.reg x).getLsbD b = ((s.reg x).getLsbD b || (s.reg y).getLsbD b)) ∧
      t.pc = s.pc + 2 ∧ OnlyRegsChange [x] s t) ∧
    (∃ t, exec (.andReg x y) s = .next t ∧ (∀ b, (t.reg x).getLsbD b = ((s.reg x).getLsbD b && (s.reg y).getLsbD b)) ∧
      t.pc = s.pc + 2 ∧ OnlyRegsChange [x] s t) ∧
    (∃ t, exec (.xorReg x y) s = .next t ∧ (∀ b, (t.reg x).getLsbD b = ((s.reg x).getLsbD b ^^ (s.reg y).getLsbD b)) ∧
      t.pc = s.pc + 2 ∧ OnlyRegsChange [x] s t)

/-- R143: `ADD Vx, kk` wraps at 8 bits and writes no flag. -/
def Obligations.AddImmediateWrapsWithoutFlag : Prop :=
  ∀ (x : Reg) (kk : Byte) (s : State), Encoded (.addImm x kk) 0x7000 0xF000 ∧
    ∃ t, exec (.addImm x kk) s = .next t ∧ (t.reg x).toNat = ((s.reg x).toNat + kk.toNat) % 256 ∧ t.pc = s.pc + 2 ∧
      OnlyRegsChange [x] s t

/-- R141, R148: `ADD Vx, Vy`. VF is the carry, also when x = F; any other Vx is the sum mod 256. -/
def Obligations.AddSetsCarryLast : Prop :=
  ∀ (x y : Reg) (s : State), Encoded (.addReg x y) 0x8004 0xF00F ∧
    ∃ t, exec (.addReg x y) s = .next t ∧
      (x ≠ 15 → (t.reg x).toNat = ((s.reg x).toNat + (s.reg y).toNat) % 256) ∧
      t.reg 15 = (if 255 < (s.reg x).toNat + (s.reg y).toNat then 1 else 0) ∧
      t.pc = s.pc + 2 ∧ OnlyRegsChange [x, 15] s t

/-- R141, R149, R151: SUB and SUBN. VF is the not-borrow, also when x = F; any other Vx is the difference mod 256. -/
def Obligations.SubtractSetsNotBorrowLast : Prop :=
  ∀ (x y : Reg) (s : State), Encoded (.sub x y) 0x8005 0xF00F ∧ Encoded (.subn x y) 0x8007 0xF00F ∧
    (∃ t, exec (.sub x y) s = .next t ∧
      (x ≠ 15 → ((t.reg x).toNat : Int) = ((s.reg x).toNat - (s.reg y).toNat : Int) % 256) ∧
      t.reg 15 = (if (s.reg y).toNat ≤ (s.reg x).toNat then 1 else 0) ∧
      t.pc = s.pc + 2 ∧ OnlyRegsChange [x, 15] s t) ∧
    (∃ t, exec (.subn x y) s = .next t ∧
      (x ≠ 15 → ((t.reg x).toNat : Int) = ((s.reg y).toNat - (s.reg x).toNat : Int) % 256) ∧
      t.reg 15 = (if (s.reg x).toNat ≤ (s.reg y).toNat then 1 else 0) ∧
      t.pc = s.pc + 2 ∧ OnlyRegsChange [x, 15] s t)

/-- R141, R150, R152: SHR and SHL shift the old Vy into Vx by one; VF is the bit shifted out, also when x = F. -/
def Obligations.ShiftsCopyVyThenShift : Prop :=
  ∀ (x y : Reg) (s : State), Encoded (.shr x y) 0x8006 0xF00F ∧ Encoded (.shl x y) 0x800E 0xF00F ∧
    (∃ t, exec (.shr x y) s = .next t ∧ (x ≠ 15 → (t.reg x).toNat = (s.reg y).toNat / 2) ∧
      (t.reg 15).toNat = (s.reg y).toNat % 2 ∧ t.pc = s.pc + 2 ∧ OnlyRegsChange [x, 15] s t) ∧
    (∃ t, exec (.shl x y) s = .next t ∧ (x ≠ 15 → (t.reg x).toNat = 2 * (s.reg y).toNat % 256) ∧
      (t.reg 15).toNat = (s.reg y).toNat / 128 ∧ t.pc = s.pc + 2 ∧ OnlyRegsChange [x, 15] s t)

/-- R153: RND writes a drawn byte masked by kk, so only bits of kk can be set; any byte can be drawn, and each run takes one draw.
The form of the RAND input, a list and then a free value, is the model's choice (log 4). -/
def Obligations.RandomByteIsMaskedAndUnconstrained : Prop :=
  ∀ (x : Reg) (kk : Byte) (s : State), Encoded (.rnd x kk) 0xC000 0xF000 ∧
    (∃ t draw, exec (.rnd x kk) s = .next t ∧ t.reg x = draw &&& kk ∧
      (∀ b, (t.reg x).getLsbD b = true → kk.getLsbD b = true) ∧
      t.pc = s.pc + 2 ∧ OnlyRegsChange [x] s { t with rand := s.rand } ∧ t.rand ≠ s.rand) ∧
    (∀ draw : Byte, ∃ t,
      exec (.rnd x kk) { s with rand := { s.rand with pending := draw :: s.rand.pending } } = .next t ∧
        t.reg x = draw &&& kk ∧ t.rand = s.rand)

/-! ### Index register and memory -/

/-- R181–R183: LD I takes nnn, ADD I wraps at 16 bits with no flag, LD F points at the glyph of the low nibble; nothing but I and PC changes. -/
def Obligations.IndexRegisterLoads : Prop :=
  ∀ (nnn : Addr) (x : Reg) (s : State),
    Encoded (.ldI nnn) 0xA000 0xF000 ∧ Encoded (.addI x) 0xF01E 0xF0FF ∧ Encoded (.ldF x) 0xF029 0xF0FF ∧
    (∃ t, exec (.ldI nnn) s = .next t ∧ t.i.toNat = nnn.toNat ∧ t = { s with i := t.i, pc := s.pc + 2 }) ∧
    (∃ t, exec (.addI x) s = .next t ∧ t.i.toNat = (s.i.toNat + (s.reg x).toNat) % 65536 ∧
      t = { s with i := t.i, pc := s.pc + 2 }) ∧
    (∃ t, exec (.ldF x) s = .next t ∧ t.i.toNat = 0x050 + 5 * ((s.reg x).toNat % 16) ∧
      t = { s with i := t.i, pc := s.pc + 2 })

/-- R184: LD B stores the decimal digits of Vx at I, I+1, I+2; I is unchanged, and no other byte of memory. Where the range may not
be written it raises AddressFault naming the lowest offending address, and changes nothing else. -/
def Obligations.BcdStoresTheDecimalDigits : Prop :=
  ∀ (x : Reg) (s : State), Encoded (.ldB x) 0xF033 0xF0FF ∧
    (Writable s s.i.toNat 3 → ∃ t, exec (.ldB x) s = .next t ∧
      100 * (t.byteAt s.i.toNat).toNat + 10 * (t.byteAt (s.i.toNat + 1)).toNat + (t.byteAt (s.i.toNat + 2)).toNat =
        (s.reg x).toNat ∧
      (t.byteAt (s.i.toNat + 1)).toNat ≤ 9 ∧ (t.byteAt (s.i.toNat + 2)).toNat ≤ 9 ∧
      MemoryAgreesOutside s.i.toNat 3 s t ∧ t = { s with mem := t.mem, pc := s.pc + 2 }) ∧
    (∀ bad, FirstWriteFault s s.i.toNat 3 bad →
      exec (.ldB x) s = .next { s with halt := some { kind := .addressFault, pc := s.pc, opcode := some (encode (.ldB x)), addr := some bad } })

/-- R185: LD [I], Vx stores V0..Vx at I .. I+x; I is unchanged, and no other byte of memory. Where the range may not be written it
raises AddressFault naming the lowest offending address, and changes nothing else. -/
def Obligations.StoreWritesTheRegisters : Prop :=
  ∀ (x : Reg) (s : State), Encoded (.ldStore x) 0xF055 0xF0FF ∧
    (Writable s s.i.toNat (x.val + 1) → ∃ t, exec (.ldStore x) s = .next t ∧
      (∀ r : Reg, r ≤ x → t.byteAt (s.i.toNat + r.val) = s.reg r) ∧
      MemoryAgreesOutside s.i.toNat (x.val + 1) s t ∧ t = { s with mem := t.mem, pc := s.pc + 2 }) ∧
    (∀ bad, FirstWriteFault s s.i.toNat (x.val + 1) bad →
      exec (.ldStore x) s = .next { s with halt := some { kind := .addressFault, pc := s.pc, opcode := some (encode (.ldStore x)), addr := some bad } })

/-- R186: LD Vx, [I] loads V0..Vx from I .. I+x, VF too when x = F; the registers above Vx, I and memory are unchanged.
Where the range leaves memory it raises AddressFault naming the lowest offending address, and changes nothing else. -/
def Obligations.LoadReadsTheRegisters : Prop :=
  ∀ (x : Reg) (s : State), Encoded (.ldLoad x) 0xF065 0xF0FF ∧
    (Readable s.i.toNat (x.val + 1) → ∃ t, exec (.ldLoad x) s = .next t ∧
      (∀ r : Reg, r ≤ x → t.reg r = s.byteAt (s.i.toNat + r.val)) ∧ (∀ r : Reg, x < r → t.reg r = s.reg r) ∧
      t = { s with v := t.v, pc := s.pc + 2 }) ∧
    (∀ bad, FirstReadFault s.i.toNat (x.val + 1) bad →
      exec (.ldLoad x) s = .next { s with halt := some { kind := .addressFault, pc := s.pc, opcode := some (encode (.ldLoad x)), addr := some bad } })

/-- R185, R186 (the source's round-trip property, E5): after Fx55, whatever V0..Vx and PC become, Fx65 with the same x and I restores
V0..Vx, and I is unchanged. -/
def Obligations.StoreThenLoadRestoresTheRegisters : Prop :=
  ∀ (x : Reg) (s : State) (v : Vector Byte 16) (pc : Word), Writable s s.i.toNat (x.val + 1) →
    ∃ t u, exec (.ldStore x) s = .next t ∧ exec (.ldLoad x) { t with v := v, pc := pc } = .next u ∧
      (∀ r : Reg, r ≤ x → u.reg r = s.reg r) ∧ (∀ r : Reg, x < r → u.reg r = v[r.val]) ∧ u.i = s.i

/-! ### Display -/

/-- R200: CLS turns every pixel off and changes nothing else but PC. -/
def Obligations.ClsTurnsEveryPixelOff : Prop :=
  ∀ s : State, Encoded .cls 0x00E0 0xFFFF ∧
    ∃ t, exec .cls s = .next t ∧ (∀ x y, pixel t.fb x y = false) ∧ t = { s with fb := t.fb, pc := s.pc + 2 }

/-- R201: DRW XORs the sprite at I into the framebuffer, each axis wrapping; VF is 1 exactly when some lit pixel was turned off; a
sprite of 0 rows reads nothing. The coordinates are the registers' values before the instruction, VF's too. Where a row
lies outside memory it raises AddressFault naming the lowest offending address, and changes nothing else. -/
def Obligations.DrawXorsTheSprite : Prop :=
  ∀ (x y : Reg) (n : Fin 16) (s : State), Encoded (.drw x y n) 0xD000 0xF000 ∧
    (Readable s.i.toNat n.val → ∃ t, exec (.drw x y n) s = .next t ∧
      (∀ px py, px < 64 → py < 32 → pixel t.fb px py = (pixel s.fb px py ^^ spriteBit s x y n.val px py)) ∧
      ((∃ px py, px < 64 ∧ py < 32 ∧ pixel s.fb px py = true ∧ spriteBit s x y n.val px py = true) → t.reg 15 = 1) ∧
      ((¬ ∃ px py, px < 64 ∧ py < 32 ∧ pixel s.fb px py = true ∧ spriteBit s x y n.val px py = true) → t.reg 15 = 0) ∧
      (∀ r : Reg, r ≠ 15 → t.reg r = s.reg r) ∧ t = { s with fb := t.fb, v := t.v, pc := s.pc + 2 }) ∧
    (∀ bad, FirstReadFault s.i.toNat n.val bad →
      exec (.drw x y n) s = .next { s with halt := some { kind := .addressFault, pc := s.pc, opcode := some (encode (.drw x y n)), addr := some bad } })

/-- R201 (program P4): drawing the same sprite at the same place twice restores the screen. VF holds the collision after the
first draw, so it is not a coordinate here. -/
def Obligations.DrawingTwiceRestoresTheScreen : Prop :=
  ∀ (x y : Reg) (n : Fin 16) (s t u : State), x ≠ 15 → y ≠ 15 → Readable s.i.toNat n.val →
    exec (.drw x y n) s = .next t → exec (.drw x y n) t = .next u →
    u.fb = s.fb ∧ (∀ r : Reg, r ≠ 15 → u.reg r = s.reg r) ∧
      ((∀ px py, pixel s.fb px py = false) →
        (u.reg 15 = 1 ↔ ∃ px py, px < 64 ∧ py < 32 ∧ spriteBit s x y n.val px py = true))

/-! ### Keypad and timers -/

/-- R220, R221, R222: SKP and SKNP test the key of the low nibble of Vx; nothing but PC changes. -/
def Obligations.KeySkips : Prop :=
  ∀ (x : Reg) (s : State), Encoded (.skp x) 0xE09E 0xF0FF ∧ Encoded (.sknp x) 0xE0A1 0xF0FF ∧
    ∀ k : Reg, k.val = (s.reg x).toNat % 16 →
      exec (.skp x) s = .next { s with pc := if s.keys[k.val] = true then s.pc + 4 else s.pc + 2 } ∧
      exec (.sknp x) s = .next { s with pc := if s.keys[k.val] = true then s.pc + 2 else s.pc + 4 }

/-- R223, R225, R226: LD Vx, DT reads the delay timer; LD DT, Vx and LD ST, Vx set the timers at once; nothing else but PC changes. -/
def Obligations.TimerMoves : Prop :=
  ∀ (x : Reg) (s : State),
    Encoded (.ldVxDt x) 0xF007 0xF0FF ∧ Encoded (.ldDtVx x) 0xF015 0xF0FF ∧ Encoded (.ldStVx x) 0xF018 0xF0FF ∧
    (∃ t, exec (.ldVxDt x) s = .next t ∧ t.reg x = s.dt ∧ t.pc = s.pc + 2 ∧ OnlyRegsChange [x] s t) ∧
    exec (.ldDtVx x) s = .next { s with dt := s.reg x, pc := s.pc + 2 } ∧
    exec (.ldStVx x) s = .next { s with st := s.reg x, pc := s.pc + 2 }

/-- R224: with no key down LD Vx, K leaves PC at itself and writes nothing; else Vx is the lowest code of a key that is down. -/
def Obligations.KeyWaitTakesTheLowestKey : Prop :=
  ∀ (x : Reg) (s : State), Encoded (.ldVxK x) 0xF00A 0xF0FF ∧
    ((∀ k : Reg, s.keys[k.val] = false) → exec (.ldVxK x) s = .next s) ∧
    (∀ k : Reg, s.keys[k.val] = true → (∀ j : Reg, j < k → s.keys[j.val] = false) →
      ∃ t, exec (.ldVxK x) s = .next t ∧ (t.reg x).toNat = k.val ∧ t.pc = s.pc + 2 ∧ OnlyRegsChange [x] s t)

/-! ### RET on every state with a return address -/

/-- R27, R122: on every state with an occupied slot RET completes: PC is the topmost occupied slot, SP is one less, and that is the
whole effect. -/
def Obligations.RetCompletesOnEveryNonEmptyStack : Prop :=
  ∀ (j : Fin 16) (s : State), s.sp.val = j.val + 1 → exec .ret s = .next { s with pc := s.stack[j.val], sp := j.castSucc }
end

