-- ==== Sys2Proof/Laws/Decode.lean ====
section
/-! SUPPORT. The fields of a word put together from fields (30_encoding.md R70): each field reads back, and a mask of R73 keeps the
fixed pattern. -/

namespace Sys2Proof

variable (f : BitVec 4) (x y : Reg) (n : BitVec 4) (kk : Byte) (nnn : Addr)

/-! ### `fnnn` -/

theorem fieldF_packNNN : fieldF (packNNN f nnn) = f.toNat := by
  unfold fieldF packNNN nibble
  congr 1
  apply BitVec.eq_of_getLsbD_eq; intro i hi
  interval_cases i <;> simp

theorem fieldNNN_packNNN : fieldNNN (packNNN f nnn) = nnn := by
  unfold fieldNNN packNNN nibble
  apply BitVec.eq_of_getLsbD_eq; intro i hi
  interval_cases i <;> simp

theorem packNNN_mask : packNNN f nnn &&& 0xF000 = nibble f <<< 12 := by
  unfold packNNN nibble
  apply BitVec.eq_of_getLsbD_eq; intro i hi
  interval_cases i <;> simp

/-! ### `fxkk` -/

theorem fieldF_packXKK : fieldF (packXKK f x kk) = f.toNat := by
  unfold fieldF packXKK nibble
  congr 1
  apply BitVec.eq_of_getLsbD_eq; intro i hi
  interval_cases i <;> simp

theorem fieldX_packXKK : fieldX (packXKK f x kk) = x := by
  have h : (packXKK f x kk).extractLsb' 8 4 = regField x := by
    unfold packXKK nibble
    apply BitVec.eq_of_getLsbD_eq; intro i hi
    interval_cases i <;> simp
  unfold fieldX; rw [h]; rfl

theorem fieldKK_packXKK : fieldKK (packXKK f x kk) = kk := by
  unfold fieldKK packXKK nibble
  apply BitVec.eq_of_getLsbD_eq; intro i hi
  interval_cases i <;> simp

theorem packXKK_mask : packXKK f x kk &&& 0xF000 = nibble f <<< 12 := by
  unfold packXKK nibble
  apply BitVec.eq_of_getLsbD_eq; intro i hi
  interval_cases i <;> simp

theorem packXKK_selector : packXKK f x kk &&& 0xF0FF = (nibble f <<< 12) ||| kk.setWidth 16 := by
  unfold packXKK nibble
  apply BitVec.eq_of_getLsbD_eq; intro i hi
  interval_cases i <;> simp

/-! ### `fxyn` -/

theorem fieldF_packXYN : fieldF (packXYN f x y n) = f.toNat := by
  unfold fieldF packXYN nibble
  congr 1
  apply BitVec.eq_of_getLsbD_eq; intro i hi
  interval_cases i <;> simp

theorem fieldX_packXYN : fieldX (packXYN f x y n) = x := by
  have h : (packXYN f x y n).extractLsb' 8 4 = regField x := by
    unfold packXYN nibble
    apply BitVec.eq_of_getLsbD_eq; intro i hi
    interval_cases i <;> simp
  unfold fieldX; rw [h]; rfl

theorem fieldY_packXYN : fieldY (packXYN f x y n) = y := by
  have h : (packXYN f x y n).extractLsb' 4 4 = regField y := by
    unfold packXYN nibble
    apply BitVec.eq_of_getLsbD_eq; intro i hi
    interval_cases i <;> simp
  unfold fieldY; rw [h]; rfl

theorem fieldN_packXYN : fieldN (packXYN f x y n) = n.toFin := by
  have h : (packXYN f x y n).extractLsb' 0 4 = n := by
    unfold packXYN nibble
    apply BitVec.eq_of_getLsbD_eq; intro i hi
    interval_cases i <;> simp
  unfold fieldN; rw [h]

theorem packXYN_mask : packXYN f x y n &&& 0xF000 = nibble f <<< 12 := by
  unfold packXYN nibble
  apply BitVec.eq_of_getLsbD_eq; intro i hi
  interval_cases i <;> simp

theorem packXYN_selector : packXYN f x y n &&& 0xF00F = (nibble f <<< 12) ||| nibble n := by
  unfold packXYN nibble
  apply BitVec.eq_of_getLsbD_eq; intro i hi
  interval_cases i <;> simp

/-- A word laid out in memory order and read back is the word (R55). -/
theorem wordOfBytes_split (op : Word) : wordOfBytes (highByte op) (lowByte op) = op := by
  unfold wordOfBytes highByte lowByte
  apply BitVec.eq_of_getLsbD_eq; intro i hi
  interval_cases i <;> simp

end Sys2Proof
end

