-- ==== Sys2Proof/Laws/Memory.lean ====
section
/-! SUPPORT. The laws of memory: a byte reads as last written (20_memory.md R59), for every list of cells; and every memory
operation keeps the canonical form. -/

namespace Sys2Proof.Machine

variable (g : Vector (Vector Byte 5) 16)

@[simp] theorem Memory.get_nil (a : Nat) : Memory.get g [] a = Memory.unlisted g a := rfl

/-! ### Reading after writing -/

theorem Memory.get_erase (m : Memory) (a c : Nat) :
    Memory.get g (Memory.erase m a) c = if c = a then Memory.unlisted g a else Memory.get g m c := by
  induction m with
  | nil => by_cases h : c = a <;> simp [Memory.erase, h]
  | cons kb rest ih =>
    obtain ⟨k, b⟩ := kb
    by_cases hk : k = a <;> by_cases hc : c = a <;> by_cases hkc : k = c <;>
      simp_all [Memory.erase, Memory.get]

/-- `insert` at an address that `m` does not list. -/
theorem Memory.get_insert (m : Memory) (a c : Nat) (b : Byte) (h : ∀ kb ∈ m, kb.1 ≠ a) :
    Memory.get g (Memory.insert m a b) c = if c = a then b else Memory.get g m c := by
  induction m with
  | nil => simp only [Memory.insert, Memory.get, eq_comm (a := a)]
  | cons kb rest ih =>
    obtain ⟨k, d⟩ := kb
    have hk : k ≠ a := h (k, d) (by simp)
    have ih := ih fun kb hkb => h kb (by simp [hkb])
    by_cases hlt : a < k
    · simp only [Memory.insert, if_pos hlt, Memory.get, eq_comm (a := a)]
    · simp only [Memory.insert, if_neg hlt, Memory.get, ih]
      by_cases hkc : k = c
      · subst hkc; simp [hk]
      · simp [hkc]

theorem Memory.not_listed_erase (m : Memory) (a : Nat) : ∀ kb ∈ Memory.erase m a, kb.1 ≠ a := by
  induction m with
  | nil => simp [Memory.erase]
  | cons kb rest ih =>
    obtain ⟨k, b⟩ := kb
    rw [Memory.erase]
    split
    · exact ih
    · next hk => exact List.forall_mem_cons.2 ⟨hk, ih⟩

/-- A read after a write: the byte written at its address, what was there elsewhere. No canonical form is needed. -/
theorem Memory.get_set (m : Memory) (a c : Nat) (b : Byte) :
    Memory.get g (Memory.set g m a b) c = if c = a then b else Memory.get g m c := by
  unfold Memory.set
  split
  · next h => rw [Memory.get_erase, h]
  · rw [Memory.get_insert g _ _ _ _ (Memory.not_listed_erase m a), Memory.get_erase]
    split <;> rfl

/-- A read after a block write: byte j of the block at `a + j`, what was there elsewhere. -/
theorem Memory.get_setBytes (bs : List Byte) (m : Memory) (a c : Nat) :
    Memory.get g (Memory.setBytes g m a bs) c =
      if a ≤ c ∧ c < a + bs.length then bs.getD (c - a) 0 else Memory.get g m c := by
  induction bs generalizing m a with
  | nil => rw [Memory.setBytes, if_neg (by simp only [List.length_nil]; omega)]
  | cons b bs ih =>
    rw [Memory.setBytes, ih, Memory.get_set]
    by_cases hc : c = a
    · subst hc; simp
    · by_cases hin : a + 1 ≤ c ∧ c < a + 1 + bs.length
      · obtain ⟨j, rfl⟩ : ∃ j, c = a + 1 + j := ⟨c - (a + 1), by omega⟩
        have h1 : a + 1 + j - a = j + 1 := by omega
        have h2 : j < bs.length := by omega
        simp [h1, h2]; omega
      · have : ¬ (a ≤ c ∧ c < a + (b :: bs).length) := by simp; omega
        rw [if_neg hin, if_neg this, if_neg hc]

/-! ### The canonical form -/

theorem Memory.wfAbove_mono {m : Memory} {lo hi : Nat} (h : Memory.wfAbove g hi m = true) (hle : lo ≤ hi) :
    Memory.wfAbove g lo m = true := by
  cases m with
  | nil => rfl
  | cons kb rest =>
    simp only [Memory.wfAbove, Bool.and_eq_true, decide_eq_true_eq] at h ⊢
    exact ⟨⟨⟨Nat.le_trans hle h.1.1.1, h.1.1.2⟩, h.1.2⟩, h.2⟩

theorem Memory.wfAbove_erase {m : Memory} {lo a : Nat} (h : Memory.wfAbove g lo m = true) :
    Memory.wfAbove g lo (Memory.erase m a) = true := by
  induction m generalizing lo with
  | nil => rfl
  | cons kb rest ih =>
    obtain ⟨k, b⟩ := kb
    simp only [Memory.wfAbove, Bool.and_eq_true] at h
    by_cases hk : k = a
    · rw [Memory.erase, if_pos hk]
      have hlo : lo ≤ k := by simpa using h.1.1.1
      exact Memory.wfAbove_mono g (ih h.2) (by omega)
    · rw [Memory.erase, if_neg hk]
      simp only [Memory.wfAbove, Bool.and_eq_true]
      exact ⟨h.1, ih h.2⟩

theorem Memory.wfAbove_insert {m : Memory} {lo a : Nat} {b : Byte} (h : Memory.wfAbove g lo m = true)
    (hn : ∀ kb ∈ m, kb.1 ≠ a) (hlo : lo ≤ a) (ha : a < memSize) (hb : b ≠ Memory.unlisted g a) :
    Memory.wfAbove g lo (Memory.insert m a b) = true := by
  induction m generalizing lo with
  | nil => simp [Memory.insert, Memory.wfAbove, hlo, ha, hb]
  | cons kb rest ih =>
    obtain ⟨k, c⟩ := kb
    have hk : k ≠ a := hn (k, c) (by simp)
    simp only [Memory.wfAbove, Bool.and_eq_true, decide_eq_true_eq, bne_iff_ne] at h
    obtain ⟨⟨⟨h1, h2⟩, h3⟩, h4⟩ := h
    by_cases hlt : a < k
    · rw [Memory.insert, if_pos hlt]
      simp [Memory.wfAbove, hlo, ha, hb, h2, h3, h4, Nat.succ_le_of_lt hlt]
    · rw [Memory.insert, if_neg hlt]
      have := ih h4 (fun kb hkb => hn kb (by simp [hkb])) (by omega)
      simp [Memory.wfAbove, h1, h2, h3, this]

/-- A write inside the address space keeps the canonical form. -/
theorem Memory.wf_set {m : Memory} {a : Nat} {b : Byte} (h : Memory.wf g m = true) (ha : a < memSize) :
    Memory.wf g (Memory.set g m a b) = true := by
  unfold Memory.set
  split
  · exact Memory.wfAbove_erase g h
  · next hb =>
    exact Memory.wfAbove_insert g (Memory.wfAbove_erase g h) (Memory.not_listed_erase m a) (Nat.zero_le _) ha hb

/-- A block write inside the address space keeps the canonical form. -/
theorem Memory.wf_setBytes {bs : List Byte} {m : Memory} {a : Nat} (h : Memory.wf g m = true)
    (ha : a + bs.length ≤ memSize) : Memory.wf g (Memory.setBytes g m a bs) = true := by
  induction bs generalizing m a with
  | nil => exact h
  | cons b bs ih =>
    simp only [List.length_cons] at ha
    exact ih (Memory.wf_set g h (by omega)) (by omega)

/-- Equal reads of canonical memories mean equal memories: the form really is canonical. -/
theorem Memory.get_of_wfAbove {m : Memory} {lo a : Nat} (h : Memory.wfAbove g lo m = true) (ha : a < lo) :
    Memory.get g m a = Memory.unlisted g a := by
  induction m generalizing lo with
  | nil => rfl
  | cons kb rest ih =>
    obtain ⟨k, b⟩ := kb
    simp only [Memory.wfAbove, Bool.and_eq_true, decide_eq_true_eq] at h
    rw [Memory.get, if_neg (by omega)]
    exact ih h.2 (by omega)

theorem Memory.ext_of_wfAbove {m n : Memory} {lo : Nat} (hm : Memory.wfAbove g lo m = true)
    (hn : Memory.wfAbove g lo n = true) (h : ∀ a, Memory.get g m a = Memory.get g n a) : m = n := by
  induction m generalizing n lo with
  | nil =>
    cases n with
    | nil => rfl
    | cons lc rest' =>
      obtain ⟨l, c⟩ := lc
      have := h l
      simp_all [Memory.wfAbove, Memory.get]
  | cons kb rest ih =>
    obtain ⟨k, b⟩ := kb
    have hm' := hm
    simp only [Memory.wfAbove, Bool.and_eq_true, decide_eq_true_eq, bne_iff_ne] at hm'
    cases n with
    | nil =>
      have := h k
      simp_all [Memory.get]
    | cons lc rest' =>
      obtain ⟨l, c⟩ := lc
      have hn' := hn
      simp only [Memory.wfAbove, Bool.and_eq_true, decide_eq_true_eq, bne_iff_ne] at hn'
      have hkl : k = l := by
        rcases Nat.lt_trichotomy k l with hlt | heq | hlt
        · have h1 := h k
          rw [Memory.get, if_pos rfl, Memory.get, if_neg (by omega),
            Memory.get_of_wfAbove g hn'.2 (by omega)] at h1
          exact absurd h1 hm'.1.2
        · exact heq
        · have h1 := h l
          rw [Memory.get, if_neg (by omega), Memory.get_of_wfAbove g hm'.2 (by omega), Memory.get, if_pos rfl] at h1
          exact absurd h1.symm hn'.1.2
      subst hkl
      have hbc : b = c := by simpa [Memory.get] using h k
      subst hbc
      congr 1
      refine ih hm'.2 hn'.2 fun a => ?_
      have h1 := h a
      by_cases hka : k = a
      · subst hka
        rw [Memory.get_of_wfAbove g hm'.2 (by omega), Memory.get_of_wfAbove g hn'.2 (by omega)]
      · simpa [Memory.get, hka] using h1

end Sys2Proof.Machine
end

