-- ==== Sys2Proof/Laws/State.lean ====
section
/-! SUPPORT. One lemma per field per update of the state, each true by unfolding, so that no later proof unfolds a record update. -/

namespace Sys2Proof.Machine

variable (s : State)

@[simp] theorem State.setReg_mem (x : Reg) (b : Byte) : (s.setReg x b).mem = s.mem := rfl
@[simp] theorem State.setReg_v (x : Reg) (b : Byte) : (s.setReg x b).v = s.v.set x.val b x.isLt := rfl
@[simp] theorem State.setReg_i (x : Reg) (b : Byte) : (s.setReg x b).i = s.i := rfl
@[simp] theorem State.setReg_pc (x : Reg) (b : Byte) : (s.setReg x b).pc = s.pc := rfl
@[simp] theorem State.setReg_stack (x : Reg) (b : Byte) : (s.setReg x b).stack = s.stack := rfl
@[simp] theorem State.setReg_sp (x : Reg) (b : Byte) : (s.setReg x b).sp = s.sp := rfl
@[simp] theorem State.setReg_dt (x : Reg) (b : Byte) : (s.setReg x b).dt = s.dt := rfl
@[simp] theorem State.setReg_st (x : Reg) (b : Byte) : (s.setReg x b).st = s.st := rfl
@[simp] theorem State.setReg_keys (x : Reg) (b : Byte) : (s.setReg x b).keys = s.keys := rfl
@[simp] theorem State.setReg_fb (x : Reg) (b : Byte) : (s.setReg x b).fb = s.fb := rfl
@[simp] theorem State.setReg_halt (x : Reg) (b : Byte) : (s.setReg x b).halt = s.halt := rfl
@[simp] theorem State.setReg_cfg (x : Reg) (b : Byte) : (s.setReg x b).cfg = s.cfg := rfl
@[simp] theorem State.setReg_rand (x : Reg) (b : Byte) : (s.setReg x b).rand = s.rand := rfl
@[simp] theorem State.setReg_drv (x : Reg) (b : Byte) : (s.setReg x b).drv = s.drv := rfl

@[simp] theorem State.setV_mem (w : Vector Byte 16) : (s.setV w).mem = s.mem := rfl
@[simp] theorem State.setV_v (w : Vector Byte 16) : (s.setV w).v = w := rfl
@[simp] theorem State.setV_i (w : Vector Byte 16) : (s.setV w).i = s.i := rfl
@[simp] theorem State.setV_pc (w : Vector Byte 16) : (s.setV w).pc = s.pc := rfl
@[simp] theorem State.setV_stack (w : Vector Byte 16) : (s.setV w).stack = s.stack := rfl
@[simp] theorem State.setV_sp (w : Vector Byte 16) : (s.setV w).sp = s.sp := rfl
@[simp] theorem State.setV_dt (w : Vector Byte 16) : (s.setV w).dt = s.dt := rfl
@[simp] theorem State.setV_st (w : Vector Byte 16) : (s.setV w).st = s.st := rfl
@[simp] theorem State.setV_keys (w : Vector Byte 16) : (s.setV w).keys = s.keys := rfl
@[simp] theorem State.setV_fb (w : Vector Byte 16) : (s.setV w).fb = s.fb := rfl
@[simp] theorem State.setV_halt (w : Vector Byte 16) : (s.setV w).halt = s.halt := rfl
@[simp] theorem State.setV_cfg (w : Vector Byte 16) : (s.setV w).cfg = s.cfg := rfl
@[simp] theorem State.setV_rand (w : Vector Byte 16) : (s.setV w).rand = s.rand := rfl
@[simp] theorem State.setV_drv (w : Vector Byte 16) : (s.setV w).drv = s.drv := rfl

@[simp] theorem State.setI_mem (w : Word) : (s.setI w).mem = s.mem := rfl
@[simp] theorem State.setI_v (w : Word) : (s.setI w).v = s.v := rfl
@[simp] theorem State.setI_i (w : Word) : (s.setI w).i = w := rfl
@[simp] theorem State.setI_pc (w : Word) : (s.setI w).pc = s.pc := rfl
@[simp] theorem State.setI_stack (w : Word) : (s.setI w).stack = s.stack := rfl
@[simp] theorem State.setI_sp (w : Word) : (s.setI w).sp = s.sp := rfl
@[simp] theorem State.setI_dt (w : Word) : (s.setI w).dt = s.dt := rfl
@[simp] theorem State.setI_st (w : Word) : (s.setI w).st = s.st := rfl
@[simp] theorem State.setI_keys (w : Word) : (s.setI w).keys = s.keys := rfl
@[simp] theorem State.setI_fb (w : Word) : (s.setI w).fb = s.fb := rfl
@[simp] theorem State.setI_halt (w : Word) : (s.setI w).halt = s.halt := rfl
@[simp] theorem State.setI_cfg (w : Word) : (s.setI w).cfg = s.cfg := rfl
@[simp] theorem State.setI_rand (w : Word) : (s.setI w).rand = s.rand := rfl
@[simp] theorem State.setI_drv (w : Word) : (s.setI w).drv = s.drv := rfl

@[simp] theorem State.setPc_mem (w : Word) : (s.setPc w).mem = s.mem := rfl
@[simp] theorem State.setPc_v (w : Word) : (s.setPc w).v = s.v := rfl
@[simp] theorem State.setPc_i (w : Word) : (s.setPc w).i = s.i := rfl
@[simp] theorem State.setPc_pc (w : Word) : (s.setPc w).pc = w := rfl
@[simp] theorem State.setPc_stack (w : Word) : (s.setPc w).stack = s.stack := rfl
@[simp] theorem State.setPc_sp (w : Word) : (s.setPc w).sp = s.sp := rfl
@[simp] theorem State.setPc_dt (w : Word) : (s.setPc w).dt = s.dt := rfl
@[simp] theorem State.setPc_st (w : Word) : (s.setPc w).st = s.st := rfl
@[simp] theorem State.setPc_keys (w : Word) : (s.setPc w).keys = s.keys := rfl
@[simp] theorem State.setPc_fb (w : Word) : (s.setPc w).fb = s.fb := rfl
@[simp] theorem State.setPc_halt (w : Word) : (s.setPc w).halt = s.halt := rfl
@[simp] theorem State.setPc_cfg (w : Word) : (s.setPc w).cfg = s.cfg := rfl
@[simp] theorem State.setPc_rand (w : Word) : (s.setPc w).rand = s.rand := rfl
@[simp] theorem State.setPc_drv (w : Word) : (s.setPc w).drv = s.drv := rfl

@[simp] theorem State.setDt_mem (b : Byte) : (s.setDt b).mem = s.mem := rfl
@[simp] theorem State.setDt_v (b : Byte) : (s.setDt b).v = s.v := rfl
@[simp] theorem State.setDt_i (b : Byte) : (s.setDt b).i = s.i := rfl
@[simp] theorem State.setDt_pc (b : Byte) : (s.setDt b).pc = s.pc := rfl
@[simp] theorem State.setDt_stack (b : Byte) : (s.setDt b).stack = s.stack := rfl
@[simp] theorem State.setDt_sp (b : Byte) : (s.setDt b).sp = s.sp := rfl
@[simp] theorem State.setDt_dt (b : Byte) : (s.setDt b).dt = b := rfl
@[simp] theorem State.setDt_st (b : Byte) : (s.setDt b).st = s.st := rfl
@[simp] theorem State.setDt_keys (b : Byte) : (s.setDt b).keys = s.keys := rfl
@[simp] theorem State.setDt_fb (b : Byte) : (s.setDt b).fb = s.fb := rfl
@[simp] theorem State.setDt_halt (b : Byte) : (s.setDt b).halt = s.halt := rfl
@[simp] theorem State.setDt_cfg (b : Byte) : (s.setDt b).cfg = s.cfg := rfl
@[simp] theorem State.setDt_rand (b : Byte) : (s.setDt b).rand = s.rand := rfl
@[simp] theorem State.setDt_drv (b : Byte) : (s.setDt b).drv = s.drv := rfl

@[simp] theorem State.setSt_mem (b : Byte) : (s.setSt b).mem = s.mem := rfl
@[simp] theorem State.setSt_v (b : Byte) : (s.setSt b).v = s.v := rfl
@[simp] theorem State.setSt_i (b : Byte) : (s.setSt b).i = s.i := rfl
@[simp] theorem State.setSt_pc (b : Byte) : (s.setSt b).pc = s.pc := rfl
@[simp] theorem State.setSt_stack (b : Byte) : (s.setSt b).stack = s.stack := rfl
@[simp] theorem State.setSt_sp (b : Byte) : (s.setSt b).sp = s.sp := rfl
@[simp] theorem State.setSt_dt (b : Byte) : (s.setSt b).dt = s.dt := rfl
@[simp] theorem State.setSt_st (b : Byte) : (s.setSt b).st = b := rfl
@[simp] theorem State.setSt_keys (b : Byte) : (s.setSt b).keys = s.keys := rfl
@[simp] theorem State.setSt_fb (b : Byte) : (s.setSt b).fb = s.fb := rfl
@[simp] theorem State.setSt_halt (b : Byte) : (s.setSt b).halt = s.halt := rfl
@[simp] theorem State.setSt_cfg (b : Byte) : (s.setSt b).cfg = s.cfg := rfl
@[simp] theorem State.setSt_rand (b : Byte) : (s.setSt b).rand = s.rand := rfl
@[simp] theorem State.setSt_drv (b : Byte) : (s.setSt b).drv = s.drv := rfl

@[simp] theorem State.setMem_mem (m : Memory) : (s.setMem m).mem = m := rfl
@[simp] theorem State.setMem_v (m : Memory) : (s.setMem m).v = s.v := rfl
@[simp] theorem State.setMem_i (m : Memory) : (s.setMem m).i = s.i := rfl
@[simp] theorem State.setMem_pc (m : Memory) : (s.setMem m).pc = s.pc := rfl
@[simp] theorem State.setMem_stack (m : Memory) : (s.setMem m).stack = s.stack := rfl
@[simp] theorem State.setMem_sp (m : Memory) : (s.setMem m).sp = s.sp := rfl
@[simp] theorem State.setMem_dt (m : Memory) : (s.setMem m).dt = s.dt := rfl
@[simp] theorem State.setMem_st (m : Memory) : (s.setMem m).st = s.st := rfl
@[simp] theorem State.setMem_keys (m : Memory) : (s.setMem m).keys = s.keys := rfl
@[simp] theorem State.setMem_fb (m : Memory) : (s.setMem m).fb = s.fb := rfl
@[simp] theorem State.setMem_halt (m : Memory) : (s.setMem m).halt = s.halt := rfl
@[simp] theorem State.setMem_cfg (m : Memory) : (s.setMem m).cfg = s.cfg := rfl
@[simp] theorem State.setMem_rand (m : Memory) : (s.setMem m).rand = s.rand := rfl
@[simp] theorem State.setMem_drv (m : Memory) : (s.setMem m).drv = s.drv := rfl

@[simp] theorem State.setFb_mem (f : Vector (Vector Bool 64) 32) : (s.setFb f).mem = s.mem := rfl
@[simp] theorem State.setFb_v (f : Vector (Vector Bool 64) 32) : (s.setFb f).v = s.v := rfl
@[simp] theorem State.setFb_i (f : Vector (Vector Bool 64) 32) : (s.setFb f).i = s.i := rfl
@[simp] theorem State.setFb_pc (f : Vector (Vector Bool 64) 32) : (s.setFb f).pc = s.pc := rfl
@[simp] theorem State.setFb_stack (f : Vector (Vector Bool 64) 32) : (s.setFb f).stack = s.stack := rfl
@[simp] theorem State.setFb_sp (f : Vector (Vector Bool 64) 32) : (s.setFb f).sp = s.sp := rfl
@[simp] theorem State.setFb_dt (f : Vector (Vector Bool 64) 32) : (s.setFb f).dt = s.dt := rfl
@[simp] theorem State.setFb_st (f : Vector (Vector Bool 64) 32) : (s.setFb f).st = s.st := rfl
@[simp] theorem State.setFb_keys (f : Vector (Vector Bool 64) 32) : (s.setFb f).keys = s.keys := rfl
@[simp] theorem State.setFb_fb (f : Vector (Vector Bool 64) 32) : (s.setFb f).fb = f := rfl
@[simp] theorem State.setFb_halt (f : Vector (Vector Bool 64) 32) : (s.setFb f).halt = s.halt := rfl
@[simp] theorem State.setFb_cfg (f : Vector (Vector Bool 64) 32) : (s.setFb f).cfg = s.cfg := rfl
@[simp] theorem State.setFb_rand (f : Vector (Vector Bool 64) 32) : (s.setFb f).rand = s.rand := rfl
@[simp] theorem State.setFb_drv (f : Vector (Vector Bool 64) 32) : (s.setFb f).drv = s.drv := rfl

@[simp] theorem State.setStack_mem (w : Vector Word 16) (p : Fin 17) : (s.setStack w p).mem = s.mem := rfl
@[simp] theorem State.setStack_v (w : Vector Word 16) (p : Fin 17) : (s.setStack w p).v = s.v := rfl
@[simp] theorem State.setStack_i (w : Vector Word 16) (p : Fin 17) : (s.setStack w p).i = s.i := rfl
@[simp] theorem State.setStack_pc (w : Vector Word 16) (p : Fin 17) : (s.setStack w p).pc = s.pc := rfl
@[simp] theorem State.setStack_stack (w : Vector Word 16) (p : Fin 17) : (s.setStack w p).stack = w := rfl
@[simp] theorem State.setStack_sp (w : Vector Word 16) (p : Fin 17) : (s.setStack w p).sp = p := rfl
@[simp] theorem State.setStack_dt (w : Vector Word 16) (p : Fin 17) : (s.setStack w p).dt = s.dt := rfl
@[simp] theorem State.setStack_st (w : Vector Word 16) (p : Fin 17) : (s.setStack w p).st = s.st := rfl
@[simp] theorem State.setStack_keys (w : Vector Word 16) (p : Fin 17) : (s.setStack w p).keys = s.keys := rfl
@[simp] theorem State.setStack_fb (w : Vector Word 16) (p : Fin 17) : (s.setStack w p).fb = s.fb := rfl
@[simp] theorem State.setStack_halt (w : Vector Word 16) (p : Fin 17) : (s.setStack w p).halt = s.halt := rfl
@[simp] theorem State.setStack_cfg (w : Vector Word 16) (p : Fin 17) : (s.setStack w p).cfg = s.cfg := rfl
@[simp] theorem State.setStack_rand (w : Vector Word 16) (p : Fin 17) : (s.setStack w p).rand = s.rand := rfl
@[simp] theorem State.setStack_drv (w : Vector Word 16) (p : Fin 17) : (s.setStack w p).drv = s.drv := rfl

@[simp] theorem State.setKeys_mem (k : Vector Bool 16) : (s.setKeys k).mem = s.mem := rfl
@[simp] theorem State.setKeys_v (k : Vector Bool 16) : (s.setKeys k).v = s.v := rfl
@[simp] theorem State.setKeys_i (k : Vector Bool 16) : (s.setKeys k).i = s.i := rfl
@[simp] theorem State.setKeys_pc (k : Vector Bool 16) : (s.setKeys k).pc = s.pc := rfl
@[simp] theorem State.setKeys_stack (k : Vector Bool 16) : (s.setKeys k).stack = s.stack := rfl
@[simp] theorem State.setKeys_sp (k : Vector Bool 16) : (s.setKeys k).sp = s.sp := rfl
@[simp] theorem State.setKeys_dt (k : Vector Bool 16) : (s.setKeys k).dt = s.dt := rfl
@[simp] theorem State.setKeys_st (k : Vector Bool 16) : (s.setKeys k).st = s.st := rfl
@[simp] theorem State.setKeys_keys (k : Vector Bool 16) : (s.setKeys k).keys = k := rfl
@[simp] theorem State.setKeys_fb (k : Vector Bool 16) : (s.setKeys k).fb = s.fb := rfl
@[simp] theorem State.setKeys_halt (k : Vector Bool 16) : (s.setKeys k).halt = s.halt := rfl
@[simp] theorem State.setKeys_cfg (k : Vector Bool 16) : (s.setKeys k).cfg = s.cfg := rfl
@[simp] theorem State.setKeys_rand (k : Vector Bool 16) : (s.setKeys k).rand = s.rand := rfl
@[simp] theorem State.setKeys_drv (k : Vector Bool 16) : (s.setKeys k).drv = s.drv := rfl

@[simp] theorem State.setHalt_mem (r : Option FaultRecord) : (s.setHalt r).mem = s.mem := rfl
@[simp] theorem State.setHalt_v (r : Option FaultRecord) : (s.setHalt r).v = s.v := rfl
@[simp] theorem State.setHalt_i (r : Option FaultRecord) : (s.setHalt r).i = s.i := rfl
@[simp] theorem State.setHalt_pc (r : Option FaultRecord) : (s.setHalt r).pc = s.pc := rfl
@[simp] theorem State.setHalt_stack (r : Option FaultRecord) : (s.setHalt r).stack = s.stack := rfl
@[simp] theorem State.setHalt_sp (r : Option FaultRecord) : (s.setHalt r).sp = s.sp := rfl
@[simp] theorem State.setHalt_dt (r : Option FaultRecord) : (s.setHalt r).dt = s.dt := rfl
@[simp] theorem State.setHalt_st (r : Option FaultRecord) : (s.setHalt r).st = s.st := rfl
@[simp] theorem State.setHalt_keys (r : Option FaultRecord) : (s.setHalt r).keys = s.keys := rfl
@[simp] theorem State.setHalt_fb (r : Option FaultRecord) : (s.setHalt r).fb = s.fb := rfl
@[simp] theorem State.setHalt_halt (r : Option FaultRecord) : (s.setHalt r).halt = r := rfl
@[simp] theorem State.setHalt_cfg (r : Option FaultRecord) : (s.setHalt r).cfg = s.cfg := rfl
@[simp] theorem State.setHalt_rand (r : Option FaultRecord) : (s.setHalt r).rand = s.rand := rfl
@[simp] theorem State.setHalt_drv (r : Option FaultRecord) : (s.setHalt r).drv = s.drv := rfl

@[simp] theorem State.setRand_mem (r : RandInput) : (s.setRand r).mem = s.mem := rfl
@[simp] theorem State.setRand_v (r : RandInput) : (s.setRand r).v = s.v := rfl
@[simp] theorem State.setRand_i (r : RandInput) : (s.setRand r).i = s.i := rfl
@[simp] theorem State.setRand_pc (r : RandInput) : (s.setRand r).pc = s.pc := rfl
@[simp] theorem State.setRand_stack (r : RandInput) : (s.setRand r).stack = s.stack := rfl
@[simp] theorem State.setRand_sp (r : RandInput) : (s.setRand r).sp = s.sp := rfl
@[simp] theorem State.setRand_dt (r : RandInput) : (s.setRand r).dt = s.dt := rfl
@[simp] theorem State.setRand_st (r : RandInput) : (s.setRand r).st = s.st := rfl
@[simp] theorem State.setRand_keys (r : RandInput) : (s.setRand r).keys = s.keys := rfl
@[simp] theorem State.setRand_fb (r : RandInput) : (s.setRand r).fb = s.fb := rfl
@[simp] theorem State.setRand_halt (r : RandInput) : (s.setRand r).halt = s.halt := rfl
@[simp] theorem State.setRand_cfg (r : RandInput) : (s.setRand r).cfg = s.cfg := rfl
@[simp] theorem State.setRand_rand (r : RandInput) : (s.setRand r).rand = r := rfl
@[simp] theorem State.setRand_drv (r : RandInput) : (s.setRand r).drv = s.drv := rfl

@[simp] theorem State.setDrv_mem (d : DriverSide) : (s.setDrv d).mem = s.mem := rfl
@[simp] theorem State.setDrv_v (d : DriverSide) : (s.setDrv d).v = s.v := rfl
@[simp] theorem State.setDrv_i (d : DriverSide) : (s.setDrv d).i = s.i := rfl
@[simp] theorem State.setDrv_pc (d : DriverSide) : (s.setDrv d).pc = s.pc := rfl
@[simp] theorem State.setDrv_stack (d : DriverSide) : (s.setDrv d).stack = s.stack := rfl
@[simp] theorem State.setDrv_sp (d : DriverSide) : (s.setDrv d).sp = s.sp := rfl
@[simp] theorem State.setDrv_dt (d : DriverSide) : (s.setDrv d).dt = s.dt := rfl
@[simp] theorem State.setDrv_st (d : DriverSide) : (s.setDrv d).st = s.st := rfl
@[simp] theorem State.setDrv_keys (d : DriverSide) : (s.setDrv d).keys = s.keys := rfl
@[simp] theorem State.setDrv_fb (d : DriverSide) : (s.setDrv d).fb = s.fb := rfl
@[simp] theorem State.setDrv_halt (d : DriverSide) : (s.setDrv d).halt = s.halt := rfl
@[simp] theorem State.setDrv_cfg (d : DriverSide) : (s.setDrv d).cfg = s.cfg := rfl
@[simp] theorem State.setDrv_rand (d : DriverSide) : (s.setDrv d).rand = s.rand := rfl
@[simp] theorem State.setDrv_drv (d : DriverSide) : (s.setDrv d).drv = d := rfl

end Sys2Proof.Machine
end

