-- ==== Sys2Proof/Laws/Ops.lean ====
section
/-! SUPPORT. For each shared operation, what it can do, said once: registers, the call stack, checked memory access, taking a fault,
drawing a pixel, the random draw, the decimal digits. Later proofs cite these and do not unfold the operations. -/

namespace Sys2Proof.Machine

variable (s : State)

/-! ### Registers -/

theorem State.reg_def (x : Reg) : s.reg x = s.v[x.val] := rfl

@[simp] theorem State.reg_setReg (x y : Reg) (b : Byte) : (s.setReg x b).reg y = if y = x then b else s.reg y := by
  unfold State.reg State.setReg
  simp only [Vector.getElem_set, Fin.ext_iff, eq_comm (a := x.val)]

@[simp] theorem State.reg_setV (w : Vector Byte 16) (y : Reg) : (s.setV w).reg y = w[y.val] := rfl
@[simp] theorem State.reg_setI (w : Word) (y : Reg) : (s.setI w).reg y = s.reg y := rfl
@[simp] theorem State.reg_setPc (w : Word) (y : Reg) : (s.setPc w).reg y = s.reg y := rfl
@[simp] theorem State.reg_setDt (b : Byte) (y : Reg) : (s.setDt b).reg y = s.reg y := rfl
@[simp] theorem State.reg_setSt (b : Byte) (y : Reg) : (s.setSt b).reg y = s.reg y := rfl
@[simp] theorem State.reg_setMem (m : Memory) (y : Reg) : (s.setMem m).reg y = s.reg y := rfl
@[simp] theorem State.reg_setFb (f : Vector (Vector Bool 64) 32) (y : Reg) : (s.setFb f).reg y = s.reg y := rfl
@[simp] theorem State.reg_setStack (w : Vector Word 16) (p : Fin 17) (y : Reg) : (s.setStack w p).reg y = s.reg y := rfl
@[simp] theorem State.reg_setHalt (r : Option FaultRecord) (y : Reg) : (s.setHalt r).reg y = s.reg y := rfl
@[simp] theorem State.reg_setRand (r : RandInput) (y : Reg) : (s.setRand r).reg y = s.reg y := rfl

/-- The result and then the flag (R141): the flag is VF's final value, the result that of any other destination. -/
theorem State.reg_setResultFlag (x y : Reg) (r : Byte) (f : Bool) :
    (s.setResultFlag x r f).reg y = if y = vf then boolByte f else if y = x then r else s.reg y := by
  simp [State.setResultFlag]

/-- The default advance writes PC only. -/
theorem State.advance_eq : s.advance = s.setPc (s.pc + 2) := rfl

@[simp] theorem State.reg_advance (y : Reg) : s.advance.reg y = s.reg y := rfl
@[simp] theorem State.pc_advance : s.advance.pc = s.pc + 2 := rfl

/-- A conditional handler ends at pc0 + 4 or pc0 + 2 (R120). -/
theorem State.skipIf_eq (c : Bool) : s.skipIf c = s.setPc (if c then s.pc + 4 else s.pc + 2) := by
  cases c <;> simp [State.skipIf, State.nextPc, BitVec.add_assoc]

/-- The fetch window (R101). -/
theorem State.inWindow_iff : s.inWindow = true ↔ s.cfg.pcMin ≤ s.pc ∧ s.pc ≤ 0xFFE := by
  simp [State.inWindow]

theorem State.not_inWindow_iff : s.inWindow = false ↔ s.pc < s.cfg.pcMin ∨ 0xFFE < s.pc := by
  rw [← Bool.not_eq_true, State.inWindow_iff, not_and_or, BitVec.not_le, BitVec.not_le]

/-! ### The call stack -/

theorem State.push_full (w : Word) (h : s.sp = 16) : s.push w = none := by
  simp [State.push, h]

/-- A push that succeeds writes the slot at SP and SP, nothing else (R27). -/
theorem State.push_some {w : Word} {t : State} (h : s.push w = some t) :
    ∃ hlt : s.sp.val < 16, t = s.setStack (s.stack.set s.sp.val w hlt) ⟨s.sp.val + 1, Nat.succ_lt_succ hlt⟩ := by
  unfold State.push at h
  split at h
  · next hlt => exact ⟨hlt, (Option.some.inj h).symm⟩
  · cases h

theorem State.push_of_lt {w : Word} (hlt : s.sp.val < 16) :
    s.push w = some (s.setStack (s.stack.set s.sp.val w hlt) ⟨s.sp.val + 1, Nat.succ_lt_succ hlt⟩) := by
  rw [State.push, dif_pos hlt]

theorem State.pop_empty (h : s.sp = 0) : s.pop = none := by
  simp [State.pop, h]

theorem State.pop_of_pos (hpos : 0 < s.sp.val) :
    s.pop = some (s.stack[s.sp.val - 1]'(by omega), s.setStack s.stack ⟨s.sp.val - 1, by omega⟩) := by
  rw [State.pop, dif_pos hpos]

/-- A pop that succeeds answers the slot below SP and changes SP only (R27, R122). -/
theorem State.pop_some {w : Word} {t : State} (h : s.pop = some (w, t)) :
    ∃ hpos : 0 < s.sp.val,
      w = s.stack[s.sp.val - 1]'(by omega) ∧ t = s.setStack s.stack ⟨s.sp.val - 1, by omega⟩ := by
  unfold State.pop at h
  split at h
  · next hpos => cases h; exact ⟨hpos, rfl, rfl⟩
  · cases h

/-! ### Checked memory access -/

/-- CheckRead passes exactly when the range lies in memory. -/
theorem checkRead_eq_none {a len : Nat} : checkRead a len = none ↔ (len = 0 ∨ a + len ≤ memSize) := by
  induction len generalizing a with
  | zero => simp [checkRead]
  | succ len ih =>
    rw [checkRead]
    split
    · simp; omega
    · rw [ih]; omega

/-- CheckRead answers the lowest offending address (R51). -/
theorem checkRead_eq_some {a len bad : Nat} (h : checkRead a len = some bad) :
    a ≤ bad ∧ bad < a + len ∧ memSize ≤ bad ∧ ∀ c, a ≤ c → c < bad → c < memSize := by
  induction len generalizing a with
  | zero => cases h
  | succ len ih =>
    rw [checkRead] at h
    split at h
    · cases h; exact ⟨Nat.le_refl _, by omega, by assumption, by omega⟩
    · have := ih h
      refine ⟨by omega, by omega, this.2.2.1, fun c h1 h2 => ?_⟩
      by_cases hc : c = a
      · omega
      · exact this.2.2.2 c (by omega) h2

/-- CheckWrite passes exactly when no byte of the range is refused. -/
theorem checkWrite_eq_none {p : GlyphPolicy} {a len : Nat} :
    checkWrite p a len = none ↔ ∀ c, a ≤ c → c < a + len → writeRefused p c = false := by
  induction len generalizing a with
  | zero => simp [checkWrite]; omega
  | succ len ih =>
    rw [checkWrite]
    split
    · next h =>
      simp only [reduceCtorEq, false_iff, not_forall]
      exact ⟨a, Nat.le_refl _, by omega, by simp [h]⟩
    · next h =>
      rw [ih]
      refine ⟨fun hall c h1 h2 => ?_, fun hall c h1 h2 => hall c (by omega) (by omega)⟩
      by_cases hc : c = a
      · subst hc; simpa using h
      · exact hall c (by omega) (by omega)

/-- CheckWrite answers the lowest offending address (R51). -/
theorem checkWrite_eq_some {p : GlyphPolicy} {a len bad : Nat} (h : checkWrite p a len = some bad) :
    a ≤ bad ∧ bad < a + len ∧ writeRefused p bad = true ∧ ∀ c, a ≤ c → c < bad → writeRefused p c = false := by
  induction len generalizing a with
  | zero => cases h
  | succ len ih =>
    rw [checkWrite] at h
    split at h
    · cases h; exact ⟨Nat.le_refl _, by omega, by assumption, by omega⟩
    · next hok =>
      have := ih h
      refine ⟨by omega, by omega, this.2.2.1, fun c h1 h2 => ?_⟩
      by_cases hc : c = a
      · subst hc; simpa using hok
      · exact this.2.2.2 c (by omega) h2

/-- Under `allow` only an address outside memory is refused. -/
@[simp] theorem writeRefused_allow (a : Nat) : writeRefused .allow a = decide (memSize ≤ a) := by
  simp [writeRefused]

theorem State.bytesAt_length (a len : Nat) : (s.bytesAt a len).length = len := by
  induction len generalizing a with
  | zero => rfl
  | succ len ih => simp [State.bytesAt, ih]

theorem State.bytesAt_getD (a len j : Nat) (h : j < len) : (s.bytesAt a len).getD j 0 = s.byteAt (a + j) := by
  induction len generalizing a j with
  | zero => omega
  | succ len ih =>
    cases j with
    | zero => simp [State.bytesAt]
    | succ j =>
      have := ih (a + 1) j (by omega)
      simp only [State.bytesAt, List.getD_cons_succ, this]
      congr 1; omega

/-- A checked read: the bytes of the range, or the lowest offending address; it changes nothing. -/
theorem State.readBytes_ok {a len : Nat} {bs : List Byte} (h : s.readBytes a len = .ok bs) :
    (len = 0 ∨ a + len ≤ memSize) ∧ bs = s.bytesAt a len := by
  unfold State.readBytes at h
  split at h
  · cases h
  · next hc => cases h; exact ⟨checkRead_eq_none.1 hc, rfl⟩

theorem State.readBytes_of_le {a len : Nat} (h : len = 0 ∨ a + len ≤ memSize) :
    s.readBytes a len = .ok (s.bytesAt a len) := by
  rw [State.readBytes, checkRead_eq_none.2 h]

theorem State.readBytes_error {a len bad : Nat} (h : s.readBytes a len = .error bad) : checkRead a len = some bad := by
  unfold State.readBytes at h
  split at h
  · cases h; assumption
  · cases h

/-- A checked write that succeeds changes memory only, and every byte of the range was allowed. -/
theorem State.writeBytes_ok {a : Nat} {bs : List Byte} {t : State} (h : s.writeBytes a bs = .ok t) :
    (∀ c, a ≤ c → c < a + bs.length → writeRefused s.cfg.glyphWrites c = false) ∧
      t = s.setMem (Memory.setBytes s.cfg.glyphs s.mem a bs) := by
  unfold State.writeBytes at h
  split at h
  · cases h
  · next hc => cases h; exact ⟨checkWrite_eq_none.1 hc, rfl⟩

theorem State.writeBytes_of_allowed {a : Nat} {bs : List Byte}
    (h : ∀ c, a ≤ c → c < a + bs.length → writeRefused s.cfg.glyphWrites c = false) :
    s.writeBytes a bs = .ok (s.setMem (Memory.setBytes s.cfg.glyphs s.mem a bs)) := by
  rw [State.writeBytes, checkWrite_eq_none.2 h]

theorem State.writeBytes_error {a bad : Nat} {bs : List Byte} (h : s.writeBytes a bs = .error bad) :
    checkWrite s.cfg.glyphWrites a bs.length = some bad := by
  unfold State.writeBytes at h
  split at h
  · cases h; assumption
  · cases h

/-- A byte after a block write: the byte written, or what was there. -/
theorem State.byteAt_setBytes (a c : Nat) (bs : List Byte) :
    (s.setMem (Memory.setBytes s.cfg.glyphs s.mem a bs)).byteAt c =
      if a ≤ c ∧ c < a + bs.length then bs.getD (c - a) 0 else s.byteAt c :=
  Memory.get_setBytes _ _ _ _ _

/-- Which writes are refused, in addresses (R51). -/
theorem writeRefused_iff {p : GlyphPolicy} {a : Nat} :
    writeRefused p a = true ↔ 0xFFF < a ∨ (p = .fault ∧ 0x050 ≤ a ∧ a ≤ 0x09F) := by
  have hm : memSize = 0x1000 := rfl
  have hb : glyphBase = 0x050 := rfl
  have he : glyphEnd = 0x0A0 := rfl
  unfold writeRefused
  cases p <;> simp only [Bool.or_eq_true, Bool.and_eq_true, decide_eq_true_eq, beq_iff_eq, hm, hb, he] <;>
    simp <;> omega

theorem writeRefused_lt {p : GlyphPolicy} {a : Nat} (h : writeRefused p a = false) : a < memSize := by
  simp [writeRefused] at h; exact h.1

/-- Reads depend on memory and the glyph table alone. -/
theorem State.byteAt_congr {s t : State} (hm : t.mem = s.mem) (hc : t.cfg = s.cfg) (a : Nat) :
    t.byteAt a = s.byteAt a := by
  simp [State.byteAt, hm, hc]

/-! Every update but `setMem` leaves memory as it reads. -/

@[simp] theorem State.byteAt_setReg (x : Reg) (b : Byte) (a : Nat) : (s.setReg x b).byteAt a = s.byteAt a := rfl
@[simp] theorem State.byteAt_setV (w : Vector Byte 16) (a : Nat) : (s.setV w).byteAt a = s.byteAt a := rfl
@[simp] theorem State.byteAt_setI (w : Word) (a : Nat) : (s.setI w).byteAt a = s.byteAt a := rfl
@[simp] theorem State.byteAt_setPc (w : Word) (a : Nat) : (s.setPc w).byteAt a = s.byteAt a := rfl
@[simp] theorem State.byteAt_setDt (b : Byte) (a : Nat) : (s.setDt b).byteAt a = s.byteAt a := rfl
@[simp] theorem State.byteAt_setSt (b : Byte) (a : Nat) : (s.setSt b).byteAt a = s.byteAt a := rfl
@[simp] theorem State.byteAt_setFb (f : Vector (Vector Bool 64) 32) (a : Nat) : (s.setFb f).byteAt a = s.byteAt a := rfl
@[simp] theorem State.byteAt_setStack (w : Vector Word 16) (p : Fin 17) (a : Nat) : (s.setStack w p).byteAt a = s.byteAt a := rfl
@[simp] theorem State.byteAt_setKeys (k : Vector Bool 16) (a : Nat) : (s.setKeys k).byteAt a = s.byteAt a := rfl
@[simp] theorem State.byteAt_setHalt (r : Option FaultRecord) (a : Nat) : (s.setHalt r).byteAt a = s.byteAt a := rfl
@[simp] theorem State.byteAt_setRand (r : RandInput) (a : Nat) : (s.setRand r).byteAt a = s.byteAt a := rfl
@[simp] theorem State.byteAt_advance (a : Nat) : s.advance.byteAt a = s.byteAt a := rfl

/-! ### Operands -/

@[simp] theorem decimalDigits_length (b : Byte) : (decimalDigits b).length = 3 := rfl

@[simp] theorem State.regsUpTo_length (x : Reg) : (s.regsUpTo x).length = x.val + 1 := by
  simp [State.regsUpTo]

theorem State.regsUpTo_getD (x y : Reg) (h : y ≤ x) : (s.regsUpTo x).getD y.val 0 = s.reg y := by
  have h' : y.val < x.val + 1 := Nat.lt_succ_of_le h
  simp [State.regsUpTo, State.reg, List.getD_eq_getElem?_getD, h']

/-- Loading a block of registers from V[k] up: byte j into V[k + j], the others kept (R186). -/
theorem loadRegs_getElem (bs : List Byte) (k : Nat) (v : Vector Byte 16) (y : Nat) (hy : y < 16) :
    (loadRegs k bs v)[y] = if k ≤ y ∧ y < k + bs.length then bs.getD (y - k) 0 else v[y] := by
  induction bs generalizing k v with
  | nil => rw [loadRegs, if_neg (by simp only [List.length_nil]; omega)]
  | cons b bs ih =>
    rw [loadRegs, ih, Vector.getElem_setIfInBounds]
    by_cases hk : y = k
    · subst hk; simp
    · by_cases hin : k + 1 ≤ y ∧ y < k + 1 + bs.length
      · obtain ⟨j, rfl⟩ : ∃ j, y = k + 1 + j := ⟨y - (k + 1), by omega⟩
        have h1 : k + 1 + j - k = j + 1 := by omega
        have h2 : j < bs.length := by omega
        have h3 : k + 1 + j - (k + 1) = j := by omega
        rw [if_pos hin, if_pos (by simp only [List.length_cons]; omega), h1, h3, List.getD_cons_succ]
      · have : ¬ (k ≤ y ∧ y < k + (b :: bs).length) := by simp only [List.length_cons]; omega
        rw [if_neg hin, if_neg this, if_neg (by omega)]

/-! ### Pixels -/

/-- Toggling a pixel toggles that pixel and no other (R201). -/
theorem pixel_flipPixel (fb : Vector (Vector Bool 64) 32) (x y px py : Nat) :
    pixel (flipPixel fb x y) px py = if px % 64 = x % 64 ∧ py % 32 = y % 32 then !pixel fb px py else pixel fb px py := by
  unfold pixel flipPixel
  rw [Vector.getElem_set]
  by_cases hy : y % 32 = py % 32
  · rw [if_pos hy, Vector.getElem_set]
    by_cases hx : x % 64 = px % 64
    · simp [hx, hy, pixel]
    · rw [if_neg hx, if_neg (by omega)]; simp [hy]
  · rw [if_neg hy, if_neg (by omega)]

/-- A drawn bit changes at most its own pixel, and adds a collision exactly when it turns that pixel off. -/
theorem drawBit_eq (x y : Nat) (bit : Bool) (d : Drawing) :
    (drawBit x y bit d).2 = (d.2 || (bit && pixel d.1 x y)) ∧
      ∀ px py, pixel (drawBit x y bit d).1 px py =
        (pixel d.1 px py ^^ (bit && decide (px % 64 = x % 64 ∧ py % 32 = y % 32))) := by
  cases bit
  · simp [drawBit]
  · refine ⟨by simp [drawBit], fun px py => ?_⟩
    simp only [drawBit, if_true, pixel_flipPixel]
    by_cases h : px % 64 = x % 64 ∧ py % 32 = y % 32 <;> simp [h]

/-- Coordinates wrap per axis (R201). -/
theorem pixel_wrap (fb : Vector (Vector Bool 64) 32) {x y x' y' : Nat} (hx : x % 64 = x' % 64) (hy : y % 32 = y' % 32) :
    pixel fb x y = pixel fb x' y' := by
  unfold pixel; simp only [hx, hy]

/-- The columns of a sprite row that are drawn toggle their pixels and no other (R201). -/
theorem drawCols_pixel (ox y : Nat) (b : Byte) (todo : Nat) (d : Drawing) (h : todo ≤ 8) (px py : Nat) :
    pixel (drawCols ox y b todo d).1 px py =
      (pixel d.1 px py ^^ (decide (py % 32 = y % 32) &&
        (decide (8 - todo ≤ (px + 64 - ox % 64) % 64) && decide ((px + 64 - ox % 64) % 64 < 8) &&
          b.getLsbD (7 - (px + 64 - ox % 64) % 64)))) := by
  induction todo generalizing d with
  | zero => 
    have : ¬ (8 - 0 ≤ (px + 64 - ox % 64) % 64 ∧ (px + 64 - ox % 64) % 64 < 8) := by omega
    rw [← Bool.decide_and, decide_eq_false this]; simp [drawCols]
  | succ todo ih =>
    rw [drawCols, ih _ (by omega), (drawBit_eq ..).2]
    by_cases hy : py % 32 = y % 32
    · by_cases hc : (px + 64 - ox % 64) % 64 = 7 - todo
      · have e : px % 64 = (ox + (7 - todo)) % 64 := by omega
        have e2 : 7 - (7 - todo) = todo := by omega
        have l1 : ¬ 8 - todo ≤ 7 - todo := by omega
        have l3 : 7 - todo < 8 := by omega
        simp [hy, hc, e, e2, l1, l3]
      · have e : ¬ px % 64 = (ox + (7 - todo)) % 64 := by omega
        have l : (8 - (todo + 1) ≤ (px + 64 - ox % 64) % 64) ↔ (8 - todo ≤ (px + 64 - ox % 64) % 64) := by omega
        simp only [l]; simp [hy, e]
    · simp [hy]

/-- A row collides exactly when one of its drawn bits meets a lit pixel (R201). -/
theorem drawCols_collision (ox y : Nat) (b : Byte) (todo : Nat) (d : Drawing) (h : todo ≤ 8) :
    (drawCols ox y b todo d).2 = true ↔ d.2 = true ∨
      ∃ c, 8 - todo ≤ c ∧ c < 8 ∧ b.getLsbD (7 - c) = true ∧ pixel d.1 (ox + c) y = true := by
  induction todo generalizing d with
  | zero => simp [drawCols]; omega
  | succ todo ih =>
    rw [drawCols, ih _ (by omega), (drawBit_eq ..).1, Bool.or_eq_true, Bool.and_eq_true, or_assoc]
    refine or_congr_right ⟨?_, ?_⟩
    · rintro (⟨hb, hp⟩ | ⟨c, h1, h2, hb, hp⟩)
      · exact ⟨7 - todo, by omega, by omega, by rwa [show 7 - (7 - todo) = todo by omega], hp⟩
      · rw [(drawBit_eq ..).2] at hp
        have : ¬ (ox + c) % 64 = (ox + (7 - todo)) % 64 := by omega
        simp [this] at hp
        exact ⟨c, by omega, h2, hb, hp⟩
    · rintro ⟨c, h1, h2, hb, hp⟩
      by_cases hc : c = 7 - todo
      · subst hc; rw [show 7 - (7 - todo) = todo by omega] at hb; exact .inl ⟨hb, hp⟩
      · refine .inr ⟨c, by omega, h2, hb, ?_⟩
        rw [(drawBit_eq ..).2]
        have : ¬ (ox + c) % 64 = (ox + (7 - todo)) % 64 := by omega
        simpa [this] using hp

/-- A sprite of at most 32 rows toggles the pixels under its set bits and no other (R201). -/
theorem drawRows_pixel (ox y : Nat) (bs : List Byte) (d : Drawing) (h : bs.length ≤ 32) (px py : Nat) :
    pixel (drawRows ox y bs d).1 px py =
      (pixel d.1 px py ^^ (decide ((py + 32 - y % 32) % 32 < bs.length) && decide ((px + 64 - ox % 64) % 64 < 8) &&
        (bs.getD ((py + 32 - y % 32) % 32) 0).getLsbD (7 - (px + 64 - ox % 64) % 64))) := by
  induction bs generalizing y d with
  | nil => simp [drawRows]
  | cons b bs ih =>
    have hlen : bs.length + 1 ≤ 32 := h
    rw [drawRows, ih _ _ (by omega), drawCols_pixel _ _ _ _ _ (Nat.le_refl 8)]
    by_cases hy : py % 32 = y % 32
    · have e : (py + 32 - y % 32) % 32 = 0 := by omega
      have e' : ¬ (py + 32 - (y + 1) % 32) % 32 < bs.length := by omega
      simp [hy, e, e']
    · have e : (py + 32 - y % 32) % 32 = (py + 32 - (y + 1) % 32) % 32 + 1 := by omega
      simp [hy, e]

/-- Drawing collides exactly when a set bit meets a lit pixel (R201). -/
theorem drawRows_collision (ox y : Nat) (bs : List Byte) (d : Drawing) (h : bs.length ≤ 32) :
    (drawRows ox y bs d).2 = true ↔ d.2 = true ∨
      ∃ r c, r < bs.length ∧ c < 8 ∧ (bs.getD r 0).getLsbD (7 - c) = true ∧ pixel d.1 (ox + c) (y + r) = true := by
  induction bs generalizing y d with
  | nil => simp [drawRows]
  | cons b bs ih =>
    have hlen : bs.length + 1 ≤ 32 := h
    rw [drawRows, ih _ _ (by omega), drawCols_collision _ _ _ _ _ (Nat.le_refl 8), or_assoc]
    refine or_congr_right ⟨?_, ?_⟩
    · rintro (⟨c, _, hc, hb, hp⟩ | ⟨r, c, hr, hc, hb, hp⟩)
      · exact ⟨0, c, by simp, hc, hb, hp⟩
      · rw [drawCols_pixel _ _ _ _ _ (Nat.le_refl 8)] at hp
        have : ¬ (y + 1 + r) % 32 = y % 32 := by omega
        simp [this] at hp
        exact ⟨r + 1, c, by simpa using hr, hc, by simpa using hb, by rwa [show y + (r + 1) = y + 1 + r by omega]⟩
    · rintro ⟨r, c, hr, hc, hb, hp⟩
      cases r with
      | zero => exact .inl ⟨c, by omega, hc, by simpa using hb, hp⟩
      | succ r =>
        have hr' : r < bs.length := by simpa using hr
        refine .inr ⟨r, c, hr', hc, by simpa using hb, ?_⟩
        rw [drawCols_pixel _ _ _ _ _ (Nat.le_refl 8)]
        have : ¬ (y + 1 + r) % 32 = y % 32 := by omega
        simp [this]
        rwa [show y + (r + 1) = y + 1 + r by omega] at hp

/-! ### The keypad and the random draw -/

/-- No lowest key means no key is down. -/
theorem State.lowestKey_eq_none : s.lowestKey = none ↔ ∀ k, s.keyDown k = false := by
  simp [State.lowestKey, List.find?_eq_none]

/-- A draw: a byte, from the lined-up draws or free, and a state that differs in the RAND input alone. -/
theorem State.drawRand_eq : ∃ b r, s.drawRand = (b, s.setRand r) := by
  unfold State.drawRand
  split
  · exact ⟨_, _, rfl⟩
  · exact ⟨_, _, rfl⟩

theorem State.drawRand_pending {b : Byte} {rest : List Byte} (h : s.rand.pending = b :: rest) :
    s.drawRand = (b, s.setRand { s.rand with pending := rest }) := by
  simp [State.drawRand, h]

/-! ### Taking a fault -/

/-- A fault taken changes HALT alone (R246) and records kind, pc0, opcode and addr (R247). -/
theorem State.raise_eq (k : FaultKind) (op : Option Word) (a : Option Nat) :
    s.raise k op a = { s with halt := some { kind := k, pc := s.pc, opcode := op, addr := a } } := rfl

theorem State.raiseIn_eq (i : Instr) (k : FaultKind) (a : Option Nat) :
    s.raiseIn i k a = s.raise k (some (encode i)) a := rfl

/-! ### The driver's side is out of reach: every operation commutes with a change of it (R258) -/

section DriverSide
variable (d : DriverSide)

@[simp] theorem State.reg_setDrv (x : Reg) : (s.setDrv d).reg x = s.reg x := rfl
@[simp] theorem State.byteAt_setDrv (a : Nat) : (s.setDrv d).byteAt a = s.byteAt a := rfl
@[simp] theorem State.lowestKey_setDrv : (s.setDrv d).lowestKey = s.lowestKey := rfl
@[simp] theorem State.effAddr_setDrv (j : Nat) : (s.setDrv d).effAddr j = s.effAddr j := rfl
@[simp] theorem State.regsUpTo_setDrv (x : Reg) : (s.setDrv d).regsUpTo x = s.regsUpTo x := rfl
@[simp] theorem State.wordAtPc_setDrv : (s.setDrv d).wordAtPc = s.wordAtPc := rfl
@[simp] theorem State.inWindow_setDrv : (s.setDrv d).inWindow = s.inWindow := rfl

@[simp] theorem State.bytesAt_setDrv (a len : Nat) : (s.setDrv d).bytesAt a len = s.bytesAt a len := by
  induction len generalizing a with
  | zero => rfl
  | succ len ih => simp [State.bytesAt, ih]

@[simp] theorem State.readBytes_setDrv (a len : Nat) : (s.setDrv d).readBytes a len = s.readBytes a len := by
  simp [State.readBytes]

theorem State.writeBytes_setDrv (a : Nat) (bs : List Byte) :
    (s.setDrv d).writeBytes a bs = (s.writeBytes a bs).map (·.setDrv d) := by
  unfold State.writeBytes
  simp only [State.setDrv_cfg]
  cases checkWrite s.cfg.glyphWrites a bs.length <;> rfl

theorem State.push_setDrv (w : Word) : (s.setDrv d).push w = (s.push w).map (·.setDrv d) := by
  by_cases h : s.sp.val < 16
  · rw [State.push_of_lt s h, State.push_of_lt (s.setDrv d) h]; rfl
  · have hs : s.sp = 16 := Fin.ext (by have := s.sp.isLt; omega)
    rw [State.push_full s w hs, State.push_full (s.setDrv d) w hs]; rfl

theorem State.pop_setDrv : (s.setDrv d).pop = s.pop.map fun p => (p.1, p.2.setDrv d) := by
  by_cases h : 0 < s.sp.val
  · rw [State.pop_of_pos s h, State.pop_of_pos (s.setDrv d) h]; rfl
  · have hs : s.sp = 0 := Fin.ext (by omega)
    rw [State.pop_empty s hs, State.pop_empty (s.setDrv d) hs]; rfl

theorem State.drawRand_setDrv : (s.setDrv d).drawRand = (s.drawRand.1, s.drawRand.2.setDrv d) := by
  unfold State.drawRand
  simp only [State.setDrv_rand]
  cases s.rand.pending <;> rfl

end DriverSide

theorem andThen_next {o : Host.Outcome State Fault Refusal} {f : State → Host.Outcome State Fault Refusal} {t : State}
    (h : andThen o f = .next t) : ∃ u, o = .next u ∧ f u = .next t := by
  cases o with
  | next u => exact ⟨u, rfl, h⟩
  | fault r => cases h
  | refused r => cases h

end Sys2Proof.Machine
end

