-- ==== Sys2Proof/Laws/PerInstr.lean ====
section
/-! SUPPORT. Per instruction: the word it assembles to is covered by its own row of the opcode map (30_encoding.md R73), by that row's
match and mask, and that row is in the map. -/

namespace Sys2Proof.Laws.EncodingRow

/-- The word of `i` is `op & mask = match` for the row of `i`, a row of R73. -/
def Statement (i : Instr) : Prop := (encode i &&& i.row.mask = i.row.code) ∧ i.row ∈ opcodeMap

theorem cls : Statement (.cls) :=
  ⟨rfl, by simp [opcodeMap, Instr.row]⟩

theorem ret : Statement (.ret) :=
  ⟨rfl, by simp [opcodeMap, Instr.row]⟩

theorem jp (nnn : Addr) : Statement (.jp nnn) :=
  ⟨(packNNN_mask _ _).trans rfl, by simp [opcodeMap, Instr.row]⟩

theorem call (nnn : Addr) : Statement (.call nnn) :=
  ⟨(packNNN_mask _ _).trans rfl, by simp [opcodeMap, Instr.row]⟩

theorem seImm (x : Reg) (kk : Byte) : Statement (.seImm x kk) :=
  ⟨(packXKK_mask _ _ _).trans rfl, by simp [opcodeMap, Instr.row]⟩

theorem sneImm (x : Reg) (kk : Byte) : Statement (.sneImm x kk) :=
  ⟨(packXKK_mask _ _ _).trans rfl, by simp [opcodeMap, Instr.row]⟩

theorem seReg (x y : Reg) : Statement (.seReg x y) :=
  ⟨(packXYN_selector _ _ _ _).trans rfl, by simp [opcodeMap, Instr.row]⟩

theorem ldImm (x : Reg) (kk : Byte) : Statement (.ldImm x kk) :=
  ⟨(packXKK_mask _ _ _).trans rfl, by simp [opcodeMap, Instr.row]⟩

theorem addImm (x : Reg) (kk : Byte) : Statement (.addImm x kk) :=
  ⟨(packXKK_mask _ _ _).trans rfl, by simp [opcodeMap, Instr.row]⟩

theorem ldReg (x y : Reg) : Statement (.ldReg x y) :=
  ⟨(packXYN_selector _ _ _ _).trans rfl, by simp [opcodeMap, Instr.row]⟩

theorem orReg (x y : Reg) : Statement (.orReg x y) :=
  ⟨(packXYN_selector _ _ _ _).trans rfl, by simp [opcodeMap, Instr.row]⟩

theorem andReg (x y : Reg) : Statement (.andReg x y) :=
  ⟨(packXYN_selector _ _ _ _).trans rfl, by simp [opcodeMap, Instr.row]⟩

theorem xorReg (x y : Reg) : Statement (.xorReg x y) :=
  ⟨(packXYN_selector _ _ _ _).trans rfl, by simp [opcodeMap, Instr.row]⟩

theorem addReg (x y : Reg) : Statement (.addReg x y) :=
  ⟨(packXYN_selector _ _ _ _).trans rfl, by simp [opcodeMap, Instr.row]⟩

theorem sub (x y : Reg) : Statement (.sub x y) :=
  ⟨(packXYN_selector _ _ _ _).trans rfl, by simp [opcodeMap, Instr.row]⟩

theorem shr (x y : Reg) : Statement (.shr x y) :=
  ⟨(packXYN_selector _ _ _ _).trans rfl, by simp [opcodeMap, Instr.row]⟩

theorem subn (x y : Reg) : Statement (.subn x y) :=
  ⟨(packXYN_selector _ _ _ _).trans rfl, by simp [opcodeMap, Instr.row]⟩

theorem shl (x y : Reg) : Statement (.shl x y) :=
  ⟨(packXYN_selector _ _ _ _).trans rfl, by simp [opcodeMap, Instr.row]⟩

theorem sneReg (x y : Reg) : Statement (.sneReg x y) :=
  ⟨(packXYN_selector _ _ _ _).trans rfl, by simp [opcodeMap, Instr.row]⟩

theorem ldI (nnn : Addr) : Statement (.ldI nnn) :=
  ⟨(packNNN_mask _ _).trans rfl, by simp [opcodeMap, Instr.row]⟩

theorem jpV0 (nnn : Addr) : Statement (.jpV0 nnn) :=
  ⟨(packNNN_mask _ _).trans rfl, by simp [opcodeMap, Instr.row]⟩

theorem rnd (x : Reg) (kk : Byte) : Statement (.rnd x kk) :=
  ⟨(packXKK_mask _ _ _).trans rfl, by simp [opcodeMap, Instr.row]⟩

theorem drw (x y : Reg) (n : Fin 16) : Statement (.drw x y n) :=
  ⟨(packXYN_mask _ _ _ _).trans rfl, by simp [opcodeMap, Instr.row]⟩

theorem skp (x : Reg) : Statement (.skp x) :=
  ⟨(packXKK_selector _ _ _).trans rfl, by simp [opcodeMap, Instr.row]⟩

theorem sknp (x : Reg) : Statement (.sknp x) :=
  ⟨(packXKK_selector _ _ _).trans rfl, by simp [opcodeMap, Instr.row]⟩

theorem ldVxDt (x : Reg) : Statement (.ldVxDt x) :=
  ⟨(packXKK_selector _ _ _).trans rfl, by simp [opcodeMap, Instr.row]⟩

theorem ldVxK (x : Reg) : Statement (.ldVxK x) :=
  ⟨(packXKK_selector _ _ _).trans rfl, by simp [opcodeMap, Instr.row]⟩

theorem ldDtVx (x : Reg) : Statement (.ldDtVx x) :=
  ⟨(packXKK_selector _ _ _).trans rfl, by simp [opcodeMap, Instr.row]⟩

theorem ldStVx (x : Reg) : Statement (.ldStVx x) :=
  ⟨(packXKK_selector _ _ _).trans rfl, by simp [opcodeMap, Instr.row]⟩

theorem addI (x : Reg) : Statement (.addI x) :=
  ⟨(packXKK_selector _ _ _).trans rfl, by simp [opcodeMap, Instr.row]⟩

theorem ldF (x : Reg) : Statement (.ldF x) :=
  ⟨(packXKK_selector _ _ _).trans rfl, by simp [opcodeMap, Instr.row]⟩

theorem ldB (x : Reg) : Statement (.ldB x) :=
  ⟨(packXKK_selector _ _ _).trans rfl, by simp [opcodeMap, Instr.row]⟩

theorem ldStore (x : Reg) : Statement (.ldStore x) :=
  ⟨(packXKK_selector _ _ _).trans rfl, by simp [opcodeMap, Instr.row]⟩

theorem ldLoad (x : Reg) : Statement (.ldLoad x) :=
  ⟨(packXKK_selector _ _ _).trans rfl, by simp [opcodeMap, Instr.row]⟩

end Sys2Proof.Laws.EncodingRow
end

