-- ==== Sys2Proof/Laws/Step.lean ====
section
/-! SUPPORT. What one step can do, said once: a slot of the running step call, or the driver's next call; what each call does; and how a
run of the machine unfolds. -/

namespace Sys2Proof.Machine

variable {s t : State}

/-- While a step call runs, a step is `execute_one` and then the end of the slot. -/
theorem step_of_left {n : Nat} (hl : s.drv.left = n + 1) (hh : s.halt = none) :
    step s = andThen (executeOne s) fun t => .next (t.endSlot n) := by
  simp [step, hl, runSlot, hh]

/-- While none runs, a step is the driver's next call. -/
theorem step_of_idle (hl : s.drv.left = 0) : step s = driverTurn s := by
  simp [step, hl]

/-- What a step that answers a next state can have been. -/
theorem step_cases (h : step s = .next t) :
    (∃ n u, s.drv.left = n + 1 ∧ s.halt = none ∧ executeOne s = .next u ∧ t = u.endSlot n) ∨
      (s.drv.left = 0 ∧ perform s.nextCall.1 s.nextCall.2 = .next t) := by
  unfold step at h
  split at h
  · next hl => exact .inr ⟨hl, h⟩
  · next n hl =>
    unfold runSlot at h
    split at h
    · cases h
    · next hh =>
      obtain ⟨u, hu, hend⟩ := andThen_next h
      cases hend
      exact .inl ⟨n, u, hl, hh, hu, rfl⟩

/-- The next call leaves everything but the driver's side as it is, and no step call running if none was. -/
theorem nextCall_eq (s : State) :
    ∃ d : DriverSide, s.nextCall.2 = s.setDrv d ∧ d.left = s.drv.left ∧ d.fresh = s.drv.fresh ∧
      d.returned = s.drv.returned := by
  unfold State.nextCall
  split
  · exact ⟨_, rfl, rfl, rfl, rfl⟩
  · exact ⟨_, rfl, rfl, rfl, rfl⟩

/-- A call that is lined up is the one made. -/
theorem nextCall_script {c : DriverCall} {rest : List DriverCall} (h : s.drv.script = c :: rest) :
    s.nextCall = (c, s.setDrv { s.drv with script := rest }) := by
  simp [State.nextCall, h]

/-- What a call that answers a next state can have done. -/
theorem perform_cases {c : DriverCall} (h : perform c s = .next t) :
    (c = .reset ∧ t = s.resetEngine) ∨
      (∃ bytes, c = .loadRom bytes ∧ bytes.length ≤ romMax ∧ s.drv.fresh = true ∧
        t = (s.storeRom bytes).returning .ok) ∨
      (∃ bytes, c = .loadRom bytes ∧ romMax < bytes.length ∧ t = s.returning .romTooLarge) ∨
      (∃ k, c = .setKeys k ∧ t = s.setKeys k) ∨
      (∃ n, c = .step n ∧ t = s.beginStep n) := by
  cases c with
  | reset => cases h; exact .inl ⟨rfl, rfl⟩
  | loadRom bytes =>
    simp only [perform, loadRom, romWellFormed, decide_eq_true_eq] at h
    split at h
    · next hle =>
      split at h
      · next hf => cases h; exact .inr (.inl ⟨bytes, rfl, hle, hf, rfl⟩)
      · cases h
    · next hgt => cases h; exact .inr (.inr (.inl ⟨bytes, rfl, Nat.lt_of_not_le hgt, rfl⟩))
  | setKeys k => cases h; exact .inr (.inr (.inr (.inl ⟨k, rfl, rfl⟩)))
  | step n => cases h; exact .inr (.inr (.inr (.inr ⟨n, rfl, rfl⟩)))

/-- One tick takes one from a timer, never below 0 (R253). -/
theorem tickByte_toNat (b : Byte) : (tickByte b).toNat = b.toNat - 1 := by
  unfold tickByte
  split
  · next h => simp [h]
  · next h =>
    have hb : b.toNat ≠ 0 := fun h' => h (BitVec.eq_of_toNat_eq h')
    have hlt := b.isLt
    rw [BitVec.toNat_sub]
    simp
    omega

/-- A run of one more step goes on from the next state, for any machine. -/
theorem core_run_succ (M : Host.Core) (k : Nat) (x y : M.State) (h : M.step x = .next y) :
    Host.Core.run M (k + 1) x = Host.Core.run M k y := by
  rw [Host.Core.run, h]

theorem run_zero (s : State) : Host.Core.run core 0 s = .next s := rfl

/-- A run of one more step goes on from the next state. -/
theorem run_succ (k : Nat) (h : step s = .next t) : Host.Core.run core (k + 1) s = Host.Core.run core k t :=
  core_run_succ core k s t h

end Sys2Proof.Machine
end

