-- ==== Sys2Proof/Tests/Slice0.lean ====
section
/-! SUPPORT. Tests of the model's own: the expected results are those of 95_test_vectors.md (V1–V92, E1–E8) or are read off the rule
named. Then, for each obligation with hypotheses, states and operands that meet them, at the boundary of each clause. -/

namespace Sys2Proof.Tests

open Sys2Proof.Machine

/-! ### Helpers -/

def after (o : Host.Outcome State Fault Refusal) : Option State :=
  match o with
  | .next t => some t
  | _ => none

/-- What is observed of the next state. -/
def see {α : Type} (f : State → α) (o : Host.Outcome State Fault Refusal) : Option α := (after o).map f

def refusal (o : Host.Outcome State Fault Refusal) : Option Refusal :=
  match o with
  | .refused r => some r
  | _ => none

/-- The reset state with some V registers set. -/
def regs (l : List (Reg × Byte)) : State := l.foldl (fun s p => s.setReg p.1 p.2) State.reset

/-- `s` with bytes put at an address. -/
def poke (s : State) (a : Nat) (bs : List Byte) : State := s.setMem (Memory.setBytes s.cfg.glyphs s.mem a bs)

/-- `s` with a pixel turned on. -/
def lit (s : State) (x y : Nat) : State := s.setFb (flipPixel s.fb x y)

/-- `step(1)` with the word at 0x200: one instruction, then the tick. -/
def run1 (w : Nat) (s : State) : Host.Outcome State Fault Refusal := step (s.withFetchWord 16 w)

/-- `s` with SP and one stack slot set. -/
def stackAt (s : State) (sp : Fin 17) (slot : Fin 16) (w : Word) : State := s.setStack (s.stack.set slot.val w) sp

/-- `s` with calls lined up for the driver. -/
def driven (s : State) (script : List DriverCall) : State := s.setDrv { s.drv with script := script }

/-- `s` inside a step call with `n` instructions to run. -/
def inCall (s : State) (n : Nat) : State := s.setDrv { s.drv with left := n, fresh := false }

def protectedGlyphs (s : State) : State := { s with cfg := { s.cfg with glyphWrites := .fault } }

def noKeys : Vector Bool 16 := Vector.replicate 16 false

/-- A record a run can latch: the DecodeFault at 0x200 of E7. -/
def decodeRecord : FaultRecord := { kind := .decodeFault, pc := 0x200, opcode := some 0, addr := none }

/-! ### What is well formed -/

/-- V77–V87: no row of R73 covers these words. -/
theorem test_illegal_words_refused :
    ([0x0000, 0x00E1, 0x0123, 0x01E0, 0x5121, 0x90F1, 0x8008, 0x800F, 0xE09F, 0xF000, 0xF030].map fun w =>
      (wordWellFormed w, match decode w with | .ok _ => true | .error _ => false)) =
        List.replicate 11 (false, false) := by decide

/-- R73: the two exact rows, and no neighbour of theirs. -/
theorem test_legal_words_accepted :
    [0x00E0, 0x00EE, 0x1000, 0x8FFE, 0xDFFF, 0xEFA1, 0xFF65].all wordWellFormed = true := by decide

/-- R245: 3584 bytes fit, 3585 do not. -/
theorem test_rom_bound :
    romWellFormed (List.replicate 3584 1) = true ∧ romWellFormed (List.replicate 3585 1) = false := by
  unfold romWellFormed
  rw [List.length_replicate, List.length_replicate]
  decide

/-! ### Decoding words written out from R73, bit by bit -/

theorem test_decode_control :
    decode 0b0000000011100000 = .ok .cls ∧ decode 0b0001000100000000 = .ok (.jp 0x100) ∧
    decode 0b0011000000000101 = .ok (.seImm 0 5) ∧
    decode 0b0000000011101110 = .ok .ret ∧ decode 0b0010001000010000 = .ok (.call 0x210) ∧
    decode 0b0100000000000101 = .ok (.sneImm 0 5) ∧ decode 0b0101000000010000 = .ok (.seReg 0 1) ∧
    decode 0b1001000000010000 = .ok (.sneReg 0 1) ∧ decode 0b1011001100000000 = .ok (.jpV0 0x300) := by decide

theorem test_decode_alu :
    decode 0b0110101000111111 = .ok (.ldImm 10 0x3F) ∧ decode 0b0111001100000010 = .ok (.addImm 3 2) ∧
    decode 0b1000000000010000 = .ok (.ldReg 0 1) ∧ decode 0b1000000000010001 = .ok (.orReg 0 1) ∧
    decode 0b1000000000010010 = .ok (.andReg 0 1) ∧ decode 0b1000000000010011 = .ok (.xorReg 0 1) ∧
    decode 0b1000000000010100 = .ok (.addReg 0 1) ∧
    decode 0b1000000000010101 = .ok (.sub 0 1) ∧ decode 0b1000000000010110 = .ok (.shr 0 1) ∧
    decode 0b1000000000010111 = .ok (.subn 0 1) ∧ decode 0b1000000000011110 = .ok (.shl 0 1) ∧
    decode 0b1100010100001111 = .ok (.rnd 5 0x0F) := by decide

theorem test_decode_memory :
    decode 0b1010000100100011 = .ok (.ldI 0x123) ∧ decode 0b1111111101100101 = .ok (.ldLoad 15) ∧
    decode 0b1111001000011110 = .ok (.addI 2) ∧ decode 0b1111010000101001 = .ok (.ldF 4) ∧
    decode 0b1111000000110011 = .ok (.ldB 0) ∧ decode 0b1111111101010101 = .ok (.ldStore 15) := by decide

theorem test_decode_display_keys_timers :
    decode 0b1101000000010101 = .ok (.drw 0 1 5) ∧ decode 0b1110001010100001 = .ok (.sknp 2) ∧
    decode 0b1110001010011110 = .ok (.skp 2) ∧
    decode 0b1111001100000111 = .ok (.ldVxDt 3) ∧ decode 0b1111111100001010 = .ok (.ldVxK 15) ∧
    decode 0b1111000000010101 = .ok (.ldDtVx 0) ∧ decode 0b1111000000011000 = .ok (.ldStVx 0) := by decide

/-- R55: the byte at the lower address is the high byte. -/
theorem test_decode_bytes_big_endian : decodeBytes [0x12, 0xA4] = .ok (.jp 0x2A4, []) := by decide

theorem test_decode_table_word : decodeTableWord 16 0x12A4 = some (.jp 0x2A4) := by decide

/-! ### Control flow: V1–V12 -/

theorem test_v1_se_equal_skips : see (·.pc) (run1 0x3005 (regs [(0, 5)])) = some 0x204 := by decide

theorem test_v2_se_unequal_goes_on : see (·.pc) (run1 0x3005 State.reset) = some 0x202 := by decide

theorem test_v3_sne_unequal_skips : see (·.pc) (run1 0x4005 State.reset) = some 0x204 := by decide

theorem test_v4_se_registers : see (·.pc) (run1 0x5010 State.reset) = some 0x204 := by decide

theorem test_v5_sne_registers : see (·.pc) (run1 0x9010 (regs [(1, 1)])) = some 0x204 := by decide

/-- V6: JP leaves the window; the next instruction's fetch raises AddressFault with addr = pc0 and no opcode. -/
theorem test_v6_jp_then_fetch_fault :
    (see (·.pc) (run1 0x1100 State.reset) = some 0x100) ∧
      see (·.halt) (executeOne (State.reset.setPc 0x100)) =
        some (some { kind := .addressFault, pc := 0x100, opcode := none, addr := some 0x100 }) := by decide

/-- V8: the exact sum, beyond 12 bits. -/
theorem test_v8_jp_v0_exact : see (·.pc) (run1 0xBFFF (regs [(0, 0xFF)])) = some 0x10FE := by decide

theorem test_v9_ret_underflow :
    see (fun t => (t.pc, t.sp, t.halt)) (run1 0x00EE State.reset) =
      some (0x200, 0, some { kind := .stackUnderflow, pc := 0x200, opcode := some 0x00EE, addr := none }) := by decide

theorem test_ret_pops : see (fun t => (t.pc, t.sp)) (run1 0x00EE (stackAt State.reset 1 0 0x206)) = some (0x206, 0) := by decide

/-- V10: a CALL at 0xFFE pushes 0x1000. -/
theorem test_v10_call_at_the_top :
    see (fun t => (t.pc, t.sp, t.stack[0])) (run1 0x2300 (State.reset.setPc 0xFFE)) = some (0x300, 1, 0x1000) := by decide

theorem test_v12_call_overflow :
    see (fun t => (t.pc, t.sp, t.halt)) (run1 0x2200 (stackAt State.reset 16 15 0x300)) =
      some (0x200, 16, some { kind := .stackOverflow, pc := 0x200, opcode := some 0x2200, addr := none }) := by decide

/-! ### Arithmetic and logic: V13–V41 -/

theorem test_v13_add_carry :
    see (fun t => (t.reg 0, t.reg 15, t.pc)) (run1 0x8014 (regs [(0, 0xFF), (1, 1)])) = some (0, 1, 0x202) := by decide

theorem test_v14_add_flag_last : see (·.reg 15) (run1 0x8FF4 (regs [(15, 5)])) = some 0 := by decide

theorem test_v17_sub_borrow :
    see (fun t => (t.reg 0, t.reg 15)) (run1 0x8015 (regs [(0, 3), (1, 5)])) = some (0xFE, 0) := by decide

theorem test_v21_sub_vf_source :
    see (fun t => (t.reg 1, t.reg 15)) (run1 0x81F5 (regs [(15, 5), (1, 0xFF)])) = some (0xFA, 1) := by decide

theorem test_v23_subn :
    see (fun t => (t.reg 0, t.reg 15)) (run1 0x8017 (regs [(0, 5), (1, 3)])) = some (0xFE, 0) := by decide

theorem test_v24_subn_flag_last : see (·.reg 15) (run1 0x8F17 (regs [(15, 5), (1, 0xFF)])) = some 1 := by decide

theorem test_v25_shr_copies_vy :
    see (fun t => (t.reg 0, t.reg 1, t.reg 15)) (run1 0x8016 (regs [(0, 0xFF), (1, 5)])) = some (2, 5, 1) := by decide

theorem test_v28_shr_flag_last : see (·.reg 15) (run1 0x8FF6 (regs [(15, 5)])) = some 1 := by decide

theorem test_v29_shl : see (fun t => (t.reg 0, t.reg 15)) (run1 0x801E (regs [(1, 0x81)])) = some (2, 1) := by decide

theorem test_v31_shl_flag_last : see (·.reg 15) (run1 0x8FFE (regs [(15, 5)])) = some 0 := by decide

theorem test_v32_or_keeps_vf :
    see (fun t => (t.reg 0, t.reg 15)) (run1 0x8011 (regs [(0, 0xF0), (1, 0x0F), (15, 7)])) = some (0xFF, 7) := by decide

theorem test_v33_and : see (fun t => (t.reg 0, t.reg 15)) (run1 0x8012 (regs [(0, 0xF0), (1, 0x3C), (15, 7)])) = some (0x30, 7) := by
  decide

theorem test_v34_xor : see (fun t => (t.reg 0, t.reg 15)) (run1 0x8013 (regs [(0, 0xF0), (1, 0x3C), (15, 7)])) = some (0xCC, 7) := by
  decide

theorem test_v36_ld_register : see (·.reg 0) (run1 0x8010 (regs [(1, 0x3C)])) = some 0x3C := by decide

theorem test_v37_ld_immediate : see (·.reg 10) (run1 0x6A3F State.reset) = some 0x3F := by decide

theorem test_v38_add_immediate_no_flag : see (fun t => (t.reg 3, t.reg 15)) (run1 0x7302 (regs [(3, 0xFF)])) = some (1, 0) := by decide

/-- V40: with a draw lined up; the free value needs no test. -/
theorem test_v40_rnd :
    see (fun t => (t.reg 5, t.rand.pending)) (run1 0xC50F (State.reset.setRand { pending := [0xAB, 0x77], draws := 0 })) =
      some (0x0B, [0x77]) := by decide

/-! ### Index register and memory: V43–V61 -/

theorem test_v43_ld_i : see (·.i) (run1 0xA123 State.reset) = some 0x123 := by decide

theorem test_v46_add_i_wraps :
    see (fun t => (t.i, t.reg 15)) (run1 0xF21E ((regs [(2, 1), (15, 9)]).setI 0xFFFF)) = some (0, 9) := by decide

theorem test_v48_ld_f_masks : see (·.i) (run1 0xF429 (regs [(4, 0x1F)])) = some 0x09B := by decide

/-- E4. -/
theorem test_e4_bcd :
    see (fun t => (t.bytesAt 0x300 3, t.i)) (run1 0xF033 ((regs [(0, 234)]).setI 0x300)) = some ([2, 3, 4], 0x300) := by decide

theorem test_v55_bcd_fault :
    see (fun t => (t.bytesAt 0xFFE 2, t.halt)) (run1 0xF033 ((regs [(0, 1)]).setI 0xFFE)) =
      some ([0, 0], some { kind := .addressFault, pc := 0x200, opcode := some 0xF033, addr := some 0x1000 }) := by decide

/-- V58, with four registers: x counts them, and I stays. -/
theorem test_store :
    see (fun t => (t.bytesAt 0xFFC 4, t.i)) (run1 0xF355 ((regs [(0, 7), (1, 8), (2, 9), (3, 10), (4, 11)]).setI 0xFFC)) =
      some ([7, 8, 9, 10], 0xFFC) := by decide

theorem test_v57_store_fault :
    see (fun t => (t.bytesAt 0xFF1 3, t.halt)) (run1 0xFF55 ((regs [(0, 7)]).setI 0xFF1)) =
      some ([0, 0, 0], some { kind := .addressFault, pc := 0x200, opcode := some 0xFF55, addr := some 0x1000 }) := by decide

/-- V59, with four bytes: VF of a full load is read like any other. -/
theorem test_load :
    see (fun t => (t.reg 0, t.reg 3, t.reg 4, t.i)) (run1 0xF365 ((poke (regs [(4, 0x44)]) 0xFFC [100, 101, 102, 103]).setI 0xFFC)) =
      some (100, 103, 0x44, 0xFFC) := by decide

theorem test_v60_load_fault :
    see (fun t => (t.reg 0, t.halt)) (run1 0xF065 ((regs [(0, 9)]).setI 0x1000)) =
      some (9, some { kind := .addressFault, pc := 0x200, opcode := some 0xF065, addr := some 0x1000 }) := by decide

/-- V61, and the other value of GLYPH_WRITE_POLICY (R51). -/
theorem test_v61_glyph_writes :
    see (·.byteAt 0x060) (run1 0xF055 ((regs [(0, 0xAA)]).setI 0x060)) = some 0xAA ∧
      see (·.halt) (run1 0xF055 ((protectedGlyphs (regs [(0, 0xAA)])).setI 0x060)) =
        some (some { kind := .addressFault, pc := 0x200, opcode := some 0xF055, addr := some 0x060 }) := by decide

/-! ### Display: V62–V68, E3 -/

theorem test_v62_cls : see (fun t => pixel t.fb 5 5) (run1 0x00E0 (lit State.reset 5 5)) = some false := by decide

/-- E3: columns 63, 0, …, 6 of row 31; a lit pixel among them is a collision. -/
theorem test_e3_draw_wraps :
    see (fun t => ([62, 63, 0, 2, 6, 7].map fun x => pixel t.fb x 31, t.reg 15))
        (run1 0xD011 (lit ((poke (regs [(0, 63), (1, 31)]) 0x300 [0xFF]).setI 0x300) 2 31)) =
      some ([false, true, true, false, true, false], 1) := by decide

/-- V64: VF's old value is the coordinate. -/
theorem test_v64_draw_vf_coordinate :
    see (fun t => (pixel t.fb 3 0, pixel t.fb 4 0, t.reg 15))
        (run1 0xDF11 (lit ((poke (regs [(15, 3)]) 0x300 [0xC0]).setI 0x300) 4 0)) = some (true, false, 1) := by decide

/-! ### Timers and keypad: V69–V76 -/

def key7 : State := (regs [(2, 0x17)]).setKeys (noKeys.set 7 true)

theorem test_v69_skp_masks : see (·.pc) (run1 0xE29E key7) = some 0x204 := by decide

theorem test_v70_sknp : see (·.pc) (run1 0xE2A1 key7) = some 0x202 := by decide

/-- V72: the instruction, then the tick. -/
theorem test_v72_ld_dt : see (fun t => (t.reg 3, t.dt)) (run1 0xF307 (State.reset.setDt 7)) = some (7, 6) := by decide

theorem test_v73_set_dt : see (fun t => (t.dt, t.st)) (run1 0xF015 (regs [(0, 2)])) = some (1, 0) := by decide

theorem test_v74_set_st : see (fun t => (t.st, t.soundActive)) (run1 0xF018 (regs [(0, 2)])) = some (1, true) := by decide

theorem test_v75_lowest_key :
    see (fun t => (t.reg 15, t.pc)) (run1 0xFF0A (State.reset.setKeys ((noKeys.set 12 true).set 3 true))) = some (3, 0x202) := by decide

theorem test_v76_wait : see (fun t => (t.reg 0, t.pc)) (run1 0xF00A (regs [(0, 9)])) = some (9, 0x200) := by decide

/-! ### The step call and the driver: V88–V92 -/

/-- E7: an all-zero ROM. -/
theorem test_e7_zero_rom :
    see (fun t => (t.halt, t.pc, t.drv.left, t.drv.returned)) (step (inCall State.reset 5)) =
      some (some decodeRecord, 0x200, 0, .halted decodeRecord) := by decide

/-- V88: nothing runs, no timer ticks. -/
theorem test_v88_halted :
    see (fun t => (t.dt, t.pc, t.drv.returned.code)) (step (driven ((State.reset.setHalt (some decodeRecord)).setDt 3) [.step 5])) =
      some (3, 0x200, 1) := by decide

/-- V92: a fault in a step call ends it with no tick. -/
theorem test_v92_no_tick_after_a_fault :
    see (fun t => (t.dt, t.pc, t.halt)) (stepCall 5 (poke (State.reset.setDt 3) 0x200 [0x60, 0, 0x60, 0, 0, 0])) =
      some (3, 0x204, some { kind := .decodeFault, pc := 0x204, opcode := some 0, addr := none }) := by decide

/-- R282: a ROM is copied to 0x200 upward. -/
theorem test_load_rom : see (·.bytesAt 0x1FF 4) (step (driven State.reset [.loadRom [1, 2, 3]])) = some [0, 1, 2, 3] := by decide

/-! ### Witnesses: states and operands that meet an obligation's hypotheses, clause by clause -/

theorem witness_EncodeInvertsDecode : decode 0xFF65 = .ok (.ldLoad 15) := by decide

theorem witness_DecoderAcceptsExactlyTheOpcodeMap :
    wordWellFormed 0x00E0 = true ∧ wordWellFormed 0xFF65 = true ∧ wordWellFormed 0x0000 = false ∧ wordWellFormed 0xFFFF = false := by
  decide

/-- Both ends of the fetch window. -/
def fetching (pc : Word) : State := poke (inCall (State.reset.setPc pc) 1) pc.toNat [0x12, 0x34]

theorem witness_StepRunsTheFetchedInstruction :
    (fetching 0x200).drv.left = 0 + 1 ∧ (fetching 0x200).halt = none ∧ (fetching 0x200).cfg.pcMin ≤ (fetching 0x200).pc ∧ (fetching 0x200).pc ≤ 0xFFE ∧
      decodeBytes [(fetching 0x200).byteAt (fetching 0x200).pc.toNat, (fetching 0x200).byteAt ((fetching 0x200).pc.toNat + 1)] = .ok (.jp 0x234, []) := by decide

theorem witness_StepRunsTheFetchedInstruction_top :
    (fetching 0xFFE).drv.left = 0 + 1 ∧ (fetching 0xFFE).halt = none ∧ (fetching 0xFFE).cfg.pcMin ≤ (fetching 0xFFE).pc ∧ (fetching 0xFFE).pc ≤ 0xFFE ∧
      decodeBytes [(fetching 0xFFE).byteAt (fetching 0xFFE).pc.toNat, (fetching 0xFFE).byteAt ((fetching 0xFFE).pc.toNat + 1)] = .ok (.jp 0x234, []) := by decide

/-- An all-zero memory, at both ends of the fetch window. -/
def zeroed (pc : Word) : State := State.reset.setPc pc

theorem witness_IllegalWordRaisesDecodeFault :
    (zeroed 0x200).cfg.pcMin ≤ (zeroed 0x200).pc ∧ (zeroed 0x200).pc ≤ 0xFFE ∧
      wordWellFormed (wordOfBytes ((zeroed 0x200).byteAt (zeroed 0x200).pc.toNat) ((zeroed 0x200).byteAt ((zeroed 0x200).pc.toNat + 1))) = false := by decide

theorem witness_IllegalWordRaisesDecodeFault_top :
    (zeroed 0xFFE).cfg.pcMin ≤ (zeroed 0xFFE).pc ∧ (zeroed 0xFFE).pc ≤ 0xFFE ∧
      wordWellFormed (wordOfBytes ((zeroed 0xFFE).byteAt (zeroed 0xFFE).pc.toNat) ((zeroed 0xFFE).byteAt ((zeroed 0xFFE).pc.toNat + 1))) = false := by decide

theorem witness_FetchOutsideTheWindowFaults :
    (State.reset.setPc 0x1FF).pc < (State.reset.setPc 0x1FF).cfg.pcMin ∧ 0xFFE < (State.reset.setPc 0xFFF).pc := by decide

/-- A fault inside the window, and one on either side of it. -/
theorem witness_FaultsArePrecise :
    State.reset.halt = none ∧ see (·.halt.isSome) (executeOne State.reset) = some true ∧
      see (·.halt.isSome) (executeOne (zeroed 0x1FF)) = some true ∧
      see (·.halt.isSome) (executeOne (zeroed 0xFFF)) = some true := by decide

theorem witness_FaultRecordSaysWhatHappened :
    (see (·.halt) (executeOne State.reset)) = some (some decodeRecord) ∧
      State.reset.cfg.pcMin ≤ State.reset.pc ∧ State.reset.pc ≤ 0xFFE ∧
      (see (·.halt.isSome) (executeOne (State.reset.setPc 0x1FF))) = some true ∧
      (State.reset.setPc 0x1FF).pc < (State.reset.setPc 0x1FF).cfg.pcMin ∧
      (see (·.halt.isSome) (executeOne (State.reset.setPc 0xFFF))) = some true ∧ 0xFFE < (State.reset.setPc 0xFFF).pc := by decide

/-- One fault of each kind the statement lists. -/
theorem witness_OnlyTheseInstructionsFault :
    see (·.halt.map (·.kind)) (exec (.call 0x300) (stackAt State.reset 16 0 0)) = some (some .stackOverflow) ∧
      see (·.halt.map (·.kind)) (exec .ret State.reset) = some (some .stackUnderflow) ∧
      ∀ i ∈ [Instr.drw 0 1 1, .ldB 0, .ldStore 0, .ldLoad 0],
        see (·.halt.map (·.kind)) (exec i (State.reset.setI 0x1000)) = some (some .addressFault) := by decide

/-- The forms the table names, and one on which PC simply advances. -/
def pcForms : List Instr :=
  [.jp 0x300, .call 0x300, .jpV0 0x300, .ret, .seImm 0 0, .sneImm 0 0, .seReg 0 1, .sneReg 0 1, .skp 0, .sknp 0, .ldVxK 0, .cls]

theorem witness_PcIsLeftWhereTheTableSays :
    (∀ i ∈ pcForms, (after (exec i (stackAt State.reset 1 0 0x206))).isSome = true) ∧
      (stackAt State.reset 1 0 0x206).halt = none ∧ see (·.halt.isSome) (exec .ret State.reset) = some true := by decide

/-- The last slot, a slot before it, and a slot that faults. -/
theorem witness_SlotEndsAsTheStepCallSays :
    (fetching 0x200).drv.left = 0 + 1 ∧ (inCall (fetching 0x200) 2).drv.left = 1 + 1 ∧ (fetching 0x200).halt = none ∧
      see (·.halt) (executeOne (fetching 0x200)) = some none ∧
      see (·.halt) (executeOne (inCall (fetching 0x200) 2)) = some none ∧
      see (·.halt) (executeOne (inCall State.reset 2)) = some (some decodeRecord) := by decide

theorem witness_MachineRunsTheWholeStepCall :
    (driven State.reset [.step 2]).drv.left = 0 ∧ (driven State.reset [.step 2]).drv.script = .step 2 :: [] ∧
      (driven State.reset [.step 0]).drv.script = .step 0 :: [] := by decide

/-- V76: F00A at the PC, no key down. -/
def waiting : State := poke State.reset 0x200 [0xF0, 0x0A]

theorem witness_WaitingForAKeyUsesUpTheStep :
    waiting.halt = none ∧ waiting.cfg.pcMin ≤ waiting.pc ∧ waiting.pc ≤ 0xFFE ∧ decode waiting.wordAtPc = .ok (.ldVxK 0) ∧
      ∀ k : Reg, waiting.keys[k.val] = false := by decide

theorem witness_StepZeroOnlyTicks :
    (driven State.reset [.step 0]).drv.left = 0 ∧ (driven State.reset [.step 0]).halt = none ∧
      (driven State.reset [.step 0]).drv.script = .step 0 :: [] := by decide

def halted : State := State.reset.setHalt (some decodeRecord)

theorem witness_HaltedEngineRunsNothing :
    (driven halted [.step 5]).halt = some decodeRecord ∧ (driven halted [.step 5]).drv.left = 0 ∧
      (driven halted [.step 5]).drv.script = .step 5 :: [] := by decide

theorem haltConsistent_halted (script : List DriverCall) : HaltConsistent (driven halted script) :=
  ⟨rfl, by decide, by decide, rfl⟩

theorem witness_OnlyResetClearsHalt :
    (driven halted [.reset]).halt = some decodeRecord ∧ HaltConsistent (driven halted [.reset]) ∧
      see (·.halt) (step (driven halted [.reset])) = some none ∧
      HaltConsistent (driven halted [.setKeys noKeys]) ∧
      see (·.halt) (step (driven halted [.setKeys noKeys])) = some (some decodeRecord) :=
  ⟨rfl, haltConsistent_halted _, by decide, haltConsistent_halted _, by decide⟩

/-- A memory with a cell at its last byte, and a store that steps from it. -/
theorem witness_MemoryStaysCanonical :
    MemoryCanonical ((poke (regs [(0, 1)]) 0xFFF [7]).setI 0xFFE |>.withFetchWord 16 0xF055) ∧
      (after (run1 0xF055 ((poke (regs [(0, 1)]) 0xFFF [7]).setI 0xFFE))).isSome = true := by
  unfold MemoryCanonical
  decide

/-- PC and a slot at their bounds. -/
def atBounds : State := inCall (stackAt (State.reset.setPc 0x10FE) 1 0 0x1000) 1

theorem witness_PcAndReturnAddressesStayBounded : AddressesBounded atBounds ∧ (after (step atBounds)).isSome = true :=
  ⟨⟨by decide, by decide⟩, by decide⟩

theorem witness_HaltLatchStaysConsistent :
    HaltConsistent (driven halted [.step 5]) ∧ (after (step (driven halted [.step 5]))).isSome = true ∧
      HaltConsistent (inCall State.reset 1) ∧ (after (step (inCall State.reset 1))).isSome = true :=
  ⟨haltConsistent_halted _, by decide, trivial, by decide⟩

theorem witness_ResetGivesEveryResetValue :
    (driven halted [.reset]).drv.left = 0 ∧ (driven halted [.reset]).drv.script = .reset :: [] := by decide

/-- An empty image, the largest one, and one byte more. -/
theorem witness_LoadRomStoresOrRejectsTheImage :
    ∀ bytes : List Byte, (bytes = [] ∨ bytes = List.replicate 3584 1 ∨ bytes = List.replicate 3585 1) →
      (driven State.reset [.loadRom bytes]).drv.left = 0 ∧
        (driven State.reset [.loadRom bytes]).drv.script = .loadRom bytes :: [] ∧
        (driven State.reset [.loadRom bytes]).drv.fresh = true ∧
        (bytes.length = 0 ∨ bytes.length = 3584 ∨ bytes.length = 3585) := by
  rintro bytes (rfl | rfl | rfl) <;>
    exact ⟨rfl, rfl, rfl, by simp only [List.length_nil, List.length_replicate]; decide⟩

/-- After a step call a load has no prior reset. -/
theorem witness_LoadRomWithoutResetIsRefused :
    (driven (inCall State.reset 0) [.loadRom [1]]).drv.left = 0 ∧
      (driven (inCall State.reset 0) [.loadRom [1]]).drv.script = .loadRom [1] :: [] ∧ [(1 : Byte)].length ≤ 3584 ∧
      (driven (inCall State.reset 0) [.loadRom [1]]).drv.fresh = false ∧
      refusal (step (driven (inCall State.reset 0) [.loadRom [1]])) = some .loadRomWithoutReset := by decide

theorem witness_SetKeysOverwritesTheLatch :
    (driven State.reset [.setKeys (noKeys.set 15 true)]).drv.left = 0 ∧
      (driven State.reset [.setKeys (noKeys.set 15 true)]).drv.script = .setKeys (noKeys.set 15 true) :: [] := by decide

/-- A running step call, setKeys, and reset. -/
theorem witness_KeysChangeOnlyBetweenStepCalls :
    (after (step (fetching 0x200))).isSome = true ∧
      see (·.keys) (step (driven State.reset [.setKeys (noKeys.set 15 true)])) = some (noKeys.set 15 true) ∧
      see (·.keys) (step (driven (State.reset.setKeys (noKeys.set 15 true)) [.reset])) = some noKeys := by decide

/-- Every instruction that a frame says something of, on a state where it answers a next state, and a register it leaves. -/
def frameForms : List Instr :=
  [.cls, .ret, .jp 0, .call 0, .seImm 1 0, .ldImm 1 2, .addImm 1 2, .ldReg 1 2, .orReg 1 2, .andReg 1 2, .xorReg 1 2, .addReg 1 2,
    .sub 1 2, .shr 1 2, .subn 1 2, .shl 1 2, .ldI 0, .rnd 1 2, .drw 1 2 3, .ldVxDt 1, .ldVxK 1, .ldDtVx 1, .ldStVx 1, .addI 1, .ldF 1,
    .ldB 1, .ldStore 1, .ldLoad 1]

theorem witness_RegistersWrittenAreTheListedOnes :
    (∀ i ∈ frameForms, (after (exec i State.reset)).isSome = true) ∧ (3 : Reg) ≠ 1 ∧ (3 : Reg) ≠ 15 ∧ (1 : Reg) < 3 := by decide

theorem witness_OnlyThreeInstructionsWriteI :
    see (·.i) (exec (.ldI 0xFFF) State.reset) = some 0xFFF ∧ (after (exec (.addI 1) State.reset)).isSome = true ∧
      (after (exec (.ldF 1) State.reset)).isSome = true ∧ see (·.i) (exec .cls State.reset) = some 0 := by decide

theorem witness_OnlyCallAndRetChangeTheStack :
    see (·.sp) (exec (.call 0) State.reset) = some 1 ∧ see (·.sp) (exec .ret (stackAt State.reset 1 0 0)) = some 0 ∧
      see (·.sp) (exec .cls State.reset) = some 0 := by decide

theorem witness_OnlyTheirLoadsWriteTheTimers :
    see (·.dt) (exec (.ldDtVx 0) (regs [(0, 255)])) = some 255 ∧ see (·.st) (exec (.ldStVx 0) (regs [(0, 255)])) = some 255 ∧
      (after (exec (.ldVxDt 0) State.reset)).isSome = true := by decide

theorem witness_OnlyClsAndDrwWriteTheFramebuffer :
    (after (exec .cls State.reset)).isSome = true ∧ (after (exec (.drw 0 1 15) State.reset)).isSome = true ∧
      (after (exec (.jp 0) State.reset)).isSome = true := by decide

theorem witness_OnlyTheTwoStoresWriteMemory :
    (after (exec (.ldB 0) (State.reset.setI 0xFFD))).isSome = true ∧
      (after (exec (.ldStore 15) (State.reset.setI 0xFF0))).isSome = true ∧
      (after (exec (.ldLoad 15) (State.reset.setI 0xFF0))).isSome = true := by decide

theorem witness_NoInstructionReachesTheDriverSide :
    (after (exec (.rnd 0 1) State.reset)).isSome = true ∧ (after (exec .cls State.reset)).isSome = true := by decide

/-- A store that would write the first glyph byte and one that would write the last. -/
theorem witness_ProtectedGlyphsNeverChange :
    (protectedGlyphs State.reset).cfg.glyphWrites = .fault ∧
      (after (exec (.ldStore 0) ((protectedGlyphs (regs [(0, 0xAA)])).setI 0x050))).isSome = true ∧
      (after (exec (.ldStore 0) ((protectedGlyphs (regs [(0, 0xAA)])).setI 0x09F))).isSome = true := by decide

theorem witness_CallPushesTheReturnAddress :
    (stackAt State.reset 0 0 0).sp.val < 16 ∧ (stackAt State.reset 15 0 0).sp.val < 16 ∧ (stackAt State.reset 16 0 0).sp.val = 16 := by
  decide

theorem witness_RetPopsTheReturnAddress :
    0 < (stackAt State.reset 1 0 0).sp.val ∧ 0 < (stackAt State.reset 16 0 0).sp.val ∧ State.reset.sp.val = 0 ∧
      ((0 : Fin 16).val = (stackAt State.reset 1 0 0).sp.val - 1) ∧ ((15 : Fin 16).val = (stackAt State.reset 16 0 0).sp.val - 1) := by
  decide

/-- One occupied slot, and a full stack. -/
theorem witness_RetCompletesOnEveryNonEmptyStack :
    (stackAt State.reset 1 0 0x206).sp.val = (0 : Fin 16).val + 1 ∧
      (stackAt State.reset 16 15 0x1000).sp.val = (15 : Fin 16).val + 1 := by
  decide

/-- Sixteen CALLs from an empty stack, and none from a full one. -/
theorem witness_NestedCallsReturnInReverseOrder :
    State.reset.sp.val + (List.replicate 16 (0x300 : Addr)).length ≤ 16 ∧
      (stackAt State.reset 16 0 0).sp.val + ([] : List Addr).length ≤ 16 ∧ (0 : Fin 16).val < (stackAt State.reset 16 0 0).sp.val := by
  decide

/-- A destination other than VF. -/
theorem witness_AddSetsCarryLast : (14 : Reg) ≠ 15 ∧ (0 : Reg) ≠ 15 := by decide

theorem witness_SubtractSetsNotBorrowLast : (14 : Reg) ≠ 15 ∧ (0 : Reg) ≠ 15 := by decide

theorem witness_ShiftsCopyVyThenShift : (14 : Reg) ≠ 15 ∧ (0 : Reg) ≠ 15 := by decide

/-- The highest I that LD B may use, and the lowest above the protected glyphs. -/
theorem witness_BcdStoresTheDecimalDigits :
    Writable (State.reset.setI 0xFFD) (State.reset.setI 0xFFD).i.toNat 3 ∧
      Writable (protectedGlyphs (State.reset.setI 0x0A0)) (State.reset.setI 0x0A0).i.toNat 3 := by
  constructor <;> intro a h1 h2 <;> simp [WriteFaults, protectedGlyphs, State.reset, defaultConfig] at * <;> omega

theorem witness_StoreWritesTheRegisters :
    Writable (State.reset.setI 0xFF0) (State.reset.setI 0xFF0).i.toNat ((15 : Reg).val + 1) ∧
      Writable (State.reset.setI 0xFFF) (State.reset.setI 0xFFF).i.toNat ((0 : Reg).val + 1) := by
  constructor <;> intro a h1 h2 <;> simp [WriteFaults, State.reset, defaultConfig] at * <;> omega

theorem witness_LoadReadsTheRegisters :
    Readable (State.reset.setI 0xFF0).i.toNat ((15 : Reg).val + 1) ∧ Readable (State.reset.setI 0xFFF).i.toNat ((0 : Reg).val + 1) ∧
      (14 : Reg) < 15 := by
  refine ⟨?_, ?_, by decide⟩ <;> intro a h1 h2 <;> simp at * <;> omega

/-- The lowest offending address 0x1000, reached from below. -/
theorem firstWriteFault_top (x : Nat) (h : 2 ≤ x) :
    FirstWriteFault (State.reset.setI 0xFFE) (State.reset.setI 0xFFE).i.toNat (x + 1) 0x1000 := by
  refine ⟨by decide, by simp; omega, .inl (by decide), ?_⟩
  intro a h1 h2; simp [WriteFaults, State.reset, defaultConfig] at *; omega

theorem firstReadFault_top (x : Nat) (h : 3 ≤ x) : FirstReadFault (State.reset.setI 0xFFE).i.toNat x 0x1000 :=
  ⟨by decide, by simp; omega, by decide, fun a _ h2 => by omega⟩

/-- And 0x050 under the other glyph policy. -/
theorem firstWriteFault_glyphs (x : Nat) (h : 1 ≤ x) :
    FirstWriteFault (protectedGlyphs (State.reset.setI 0x04F)) (State.reset.setI 0x04F).i.toNat (x + 1) 0x050 := by
  refine ⟨by decide, by simp; omega, .inr ⟨rfl, by decide, by decide⟩, ?_⟩
  intro a h1 h2; simp [WriteFaults, protectedGlyphs, State.reset, defaultConfig] at *; omega

theorem witness_BcdStoresTheDecimalDigits_fault :
    FirstWriteFault (State.reset.setI 0xFFE) (State.reset.setI 0xFFE).i.toNat 3 0x1000 ∧
      FirstWriteFault (protectedGlyphs (State.reset.setI 0x04F)) (State.reset.setI 0x04F).i.toNat 3 0x050 :=
  ⟨firstWriteFault_top 2 (by decide), firstWriteFault_glyphs 2 (by decide)⟩

theorem witness_StoreWritesTheRegisters_fault :
    FirstWriteFault (State.reset.setI 0xFFE) (State.reset.setI 0xFFE).i.toNat ((2 : Reg).val + 1) 0x1000 ∧
      FirstWriteFault (protectedGlyphs (State.reset.setI 0x04F)) (State.reset.setI 0x04F).i.toNat ((1 : Reg).val + 1) 0x050 :=
  ⟨firstWriteFault_top 2 (by decide), firstWriteFault_glyphs 1 (by decide)⟩

theorem witness_LoadReadsTheRegisters_fault :
    FirstReadFault (State.reset.setI 0xFFE).i.toNat ((2 : Reg).val + 1) 0x1000 := firstReadFault_top 3 (by decide)

theorem witness_DrawXorsTheSprite_fault :
    FirstReadFault (State.reset.setI 0xFFE).i.toNat (3 : Fin 16).val 0x1000 := firstReadFault_top 3 (by decide)

theorem witness_StoreThenLoadRestoresTheRegisters :
    Writable (State.reset.setI 0xFF0) (State.reset.setI 0xFF0).i.toNat ((15 : Reg).val + 1) ∧ (14 : Reg) < 15 :=
  ⟨witness_StoreWritesTheRegisters.1, by decide⟩

/-- A sprite row at 0xFFF that meets a lit pixel, one that meets none, and an empty sprite far outside memory. -/
def sprite : State := (poke State.reset 0xFFF [0x80]).setI 0xFFF

theorem witness_DrawXorsTheSprite :
    Readable sprite.i.toNat (1 : Fin 16).val ∧ Readable (State.reset.setI 0xFFFF).i.toNat (0 : Fin 16).val ∧
      (pixel (lit sprite 0 0).fb 0 0 = true ∧ spriteBit (lit sprite 0 0) 0 1 1 0 0 = true) ∧
      (¬ ∃ px py, px < 64 ∧ py < 32 ∧ pixel sprite.fb px py = true ∧ spriteBit sprite 0 1 1 px py = true) ∧ (14 : Reg) ≠ 15 := by
  refine ⟨?_, ?_, by decide, ?_, by decide⟩
  · intro a h1 h2; simp [sprite] at *; omega
  · intro a h1 h2; rw [show (0 : Fin 16).val = 0 from rfl] at h2; omega
  · rintro ⟨px, py, _, _, h, _⟩
    simp [pixel, sprite, poke, State.reset] at h

theorem witness_DrawingTwiceRestoresTheScreen :
    (0 : Reg) ≠ 15 ∧ (1 : Reg) ≠ 15 ∧ Readable sprite.i.toNat (1 : Fin 16).val ∧
      see (·.reg 15) (exec (.drw 0 1 1) sprite) = some 0 ∧
      ((after (exec (.drw 0 1 1) sprite)).bind fun t => see (·.reg 15) (exec (.drw 0 1 1) t)) = some 1 ∧
      ∀ px py, pixel sprite.fb px py = false :=
  ⟨by decide, by decide, witness_DrawXorsTheSprite.1, by decide, by decide, fun px py => by
    simp [pixel, sprite, poke, State.reset]⟩

/-- Key codes at both ends, from a register whose high nibble is dropped. -/
theorem witness_KeySkips :
    (0 : Reg).val = ((regs [(2, 0xF0)]).reg 2).toNat % 16 ∧ (15 : Reg).val = ((regs [(2, 0xFF)]).reg 2).toNat % 16 := by decide

theorem witness_KeyWaitTakesTheLowestKey :
    (∀ k : Reg, State.reset.keys[k.val] = false) ∧
      ((noKeys.set 15 true)[(15 : Reg).val] = true ∧ ∀ j : Reg, j < 15 → (noKeys.set 15 true)[j.val] = false) ∧
      ((noKeys.set 0 true)[(0 : Reg).val] = true ∧ ∀ j : Reg, j < 0 → (noKeys.set 0 true)[j.val] = false) := by decide

/-- The host's question: the table's word, placed at the fetch of the reset state, is what the next step runs. -/
theorem test_withFetchWord_runs_first : see (fun t => (t.reg 10, t.pc, t.drv.returned)) (run1 0x6A3F State.reset) = some (0x3F, 0x202, .ok) := by
  decide

end Sys2Proof.Tests
end

section
/-! PROOFS of the family 10_state.md: what an instruction can do to the state, said once, and the frames, the bounds and the call
stack's discipline that follow from it. -/

namespace Sys2Proof.Machine

/-! ### What one instruction can do -/

/-- The V registers that R22 lists for an instruction. -/
def writtenRegs : Instr → List Reg
  | .ldImm x _ | .addImm x _ | .ldReg x _ | .orReg x _ | .andReg x _ | .xorReg x _ | .rnd x _ | .ldVxDt x | .ldVxK x => [x]
  | .addReg x _ | .sub x _ | .shr x _ | .subn x _ | .shl x _ => [x, vf]
  | .drw _ _ _ => [vf]
  | .ldLoad x => (List.finRange 16).filter (· ≤ x)
  | _ => []

/-- What the meaning of an instruction can answer, by what it writes: one case for each group of instructions that write the same
pieces of state. -/
inductive Effect (s : State) : Instr → State → Prop where
  /-- a fault is taken (R246) -/
  | fault (i : Instr) (k : FaultKind) (a : Option Nat) (hk : k ≠ .romTooLarge) (ha : a.isSome = true ↔ k = .addressFault) :
      Effect s i (s.raiseIn i k a)
  /-- Fx0A waits (R224) -/
  | wait (x : Reg) : Effect s (.ldVxK x) s
  /-- a conditional skip (R120) -/
  | skip (i : Instr) (c : Bool) : Effect s i (s.skipIf c)
  /-- a jump to an address, or to the sum of an address and a byte (R123, R129) -/
  | jump (i : Instr) (nnn : Addr) (b : Byte) : Effect s i (s.setPc (zext16 nnn + b.setWidth 16))
  /-- R124 -/
  | call (nnn : Addr) (hlt : s.sp.val < 16) :
      Effect s (.call nnn)
        ((s.setStack (s.stack.set s.sp.val s.nextPc hlt) ⟨s.sp.val + 1, Nat.succ_lt_succ hlt⟩).setPc (zext16 nnn))
  /-- R122 -/
  | ret (hpos : 0 < s.sp.val) :
      Effect s .ret ((s.setStack s.stack ⟨s.sp.val - 1, by omega⟩).setPc (s.stack[s.sp.val - 1]'(by omega)))
  /-- V registers alone (R22) -/
  | regs {i : Instr} (v : Vector Byte 16) (hv : RegsAgreeBut (writtenRegs i) s (s.setV v)) : Effect s i (s.setV v).advance
  /-- R153 -/
  | rnd (x : Reg) (kk b : Byte) (r : RandInput) : Effect s (.rnd x kk) ((s.setRand r).setReg x b).advance
  /-- R200 -/
  | cls (fb : Vector (Vector Bool 64) 32) : Effect s .cls (s.setFb fb).advance
  /-- R201 -/
  | drw (x y : Reg) (n : Fin 16) (fb : Vector (Vector Bool 64) 32) (b : Byte) :
      Effect s (.drw x y n) ((s.setFb fb).setReg vf b).advance
  /-- R181–R183 -/
  | index {i : Instr} (w : Word) (hi : (∃ nnn, i = .ldI nnn) ∨ (∃ x, i = .addI x) ∨ ∃ x, i = .ldF x) :
      Effect s i (s.setI w).advance
  /-- R225 -/
  | delay (x : Reg) (b : Byte) : Effect s (.ldDtVx x) (s.setDt b).advance
  /-- R226 -/
  | sound (x : Reg) (b : Byte) : Effect s (.ldStVx x) (s.setSt b).advance
  /-- R184 -/
  | bcd (x : Reg) (hw : ∀ c, s.effAddr 0 ≤ c → c < s.effAddr 0 + 3 → writeRefused s.cfg.glyphWrites c = false) :
      Effect s (.ldB x) (s.setMem (Memory.setBytes s.cfg.glyphs s.mem (s.effAddr 0) (decimalDigits (s.reg x)))).advance
  /-- R185 -/
  | store (x : Reg) (hw : ∀ c, s.effAddr 0 ≤ c → c < s.effAddr 0 + (x.val + 1) → writeRefused s.cfg.glyphWrites c = false) :
      Effect s (.ldStore x) (s.setMem (Memory.setBytes s.cfg.glyphs s.mem (s.effAddr 0) (s.regsUpTo x))).advance

variable {s t u : State} {i : Instr}

theorem Effect.setReg (x : Reg) (b : Byte) (hx : x ∈ writtenRegs i) : Effect s i (s.setReg x b).advance := by
  refine .regs (s.v.set x.val b x.isLt) fun r hr => ?_
  have hne : r ≠ x := fun h => hr (h ▸ hx)
  exact (State.reg_setReg s x r b).trans (if_neg hne)

theorem Effect.setResultFlag (x : Reg) (b : Byte) (f : Bool) (hx : writtenRegs i = [x, vf]) :
    Effect s i (s.setResultFlag x b f).advance := by
  refine .regs (s.setResultFlag x b f).v fun r hr => ?_
  rw [hx, List.mem_cons, List.mem_singleton, not_or] at hr
  obtain ⟨hne, hvf⟩ := hr
  exact (State.reg_setResultFlag s x r b f).trans (by rw [if_neg hvf, if_neg hne])

/-- The registers above Vx are kept by a load of V0..Vx (R186). -/
theorem Effect.loadRegs (x : Reg) (a : Nat) :
    Effect s (.ldLoad x) (s.setV (loadRegs 0 (s.bytesAt a (x.val + 1)) s.v)).advance := by
  refine .regs _ fun r hr => ?_
  have hgt : x.val < r.val := by simpa [writtenRegs] using hr
  rw [State.reg_setV, loadRegs_getElem _ _ _ _ r.isLt, State.bytesAt_length, if_neg (by omega), State.reg_def]

/-- Every next state that a meaning answers is one of the listed effects. -/
theorem exec_effect (h : exec i s = .next t) : Effect s i t := by
  cases i with
  | cls => cases h; exact .cls _
  | ret =>
    change execRet s = .next t at h
    unfold execRet at h
    split at h <;> cases h
    · exact .fault _ _ _ (by decide) (by decide)
    · next hpop =>
      obtain ⟨hpos, rfl, rfl⟩ := State.pop_some s hpop
      exact .ret hpos
  | jp nnn => cases h; simpa using Effect.jump (s := s) (.jp nnn) nnn 0
  | call nnn =>
    change execCall nnn s = .next t at h
    unfold execCall at h
    split at h <;> cases h
    · exact .fault _ _ _ (by decide) (by decide)
    · next hpush =>
      obtain ⟨hlt, rfl⟩ := State.push_some s hpush
      exact .call nnn hlt
  | jpV0 nnn => cases h; exact .jump _ _ _
  | seImm | sneImm | seReg | sneReg | skp | sknp => cases h; exact .skip _ _
  | ldImm | addImm | ldReg | orReg | andReg | xorReg | ldVxDt => cases h; exact .setReg _ _ List.mem_cons_self
  | addReg | sub | shr | subn | shl => cases h; exact .setResultFlag _ _ _ rfl
  | ldI nnn => cases h; exact .index _ (.inl ⟨nnn, rfl⟩)
  | addI x => cases h; exact .index _ (.inr (.inl ⟨x, rfl⟩))
  | ldF x => cases h; exact .index _ (.inr (.inr ⟨x, rfl⟩))
  | rnd x kk =>
    obtain ⟨b, r, hdraw⟩ := s.drawRand_eq
    change execRnd x kk s = .next t at h
    unfold execRnd at h
    rw [hdraw] at h
    cases h
    exact .rnd x kk _ r
  | drw x y n =>
    change execDrw x y n s = .next t at h
    unfold execDrw at h
    split at h <;> cases h
    · exact .fault _ _ _ (by decide) (by simp)
    · exact .drw x y n _ _
  | ldVxK x =>
    change execLdVxK x s = .next t at h
    unfold execLdVxK at h
    split at h <;> cases h
    · exact .wait x
    · exact .setReg _ _ List.mem_cons_self
  | ldDtVx x => cases h; exact .delay x _
  | ldStVx x => cases h; exact .sound x _
  | ldB x =>
    change execLdB x s = .next t at h
    unfold execLdB at h
    split at h <;> cases h
    · exact .fault _ _ _ (by decide) (by simp)
    · next hw =>
      obtain ⟨hallowed, rfl⟩ := State.writeBytes_ok s hw
      exact .bcd x hallowed
  | ldStore x =>
    change execLdStore x s = .next t at h
    unfold execLdStore at h
    split at h <;> cases h
    · exact .fault _ _ _ (by decide) (by simp)
    · next hw =>
      obtain ⟨hallowed, rfl⟩ := State.writeBytes_ok s hw
      rw [State.regsUpTo_length] at hallowed
      exact .store x hallowed
  | ldLoad x =>
    change execLdLoad x s = .next t at h
    unfold execLdLoad at h
    split at h <;> cases h
    · exact .fault _ _ _ (by decide) (by simp)
    · next hread =>
      obtain ⟨-, rfl⟩ := State.readBytes_ok s hread
      exact .loadRegs x _

/-! ### Frames: which instruction writes what -/

/-- R22: every V register that R22 does not list for the instruction is kept. -/
theorem exec_regsAgreeBut (h : exec i s = .next t) : RegsAgreeBut (writtenRegs i) s t := by
  cases exec_effect h with
  | regs v hv => exact hv
  | rnd x kk b r => exact fun y hy => (State.reg_setReg _ x y b).trans (if_neg (List.ne_of_not_mem_cons hy))
  | drw x y n fb b => exact fun z hz => (State.reg_setReg _ vf z b).trans (if_neg (List.ne_of_not_mem_cons hz))
  | _ => exact fun _ _ => rfl

/-- R21, R29: the keypad latch, the parameters and the driver's side are out of an instruction's reach. -/
theorem exec_outside (h : exec i s = .next t) : t.keys = s.keys ∧ t.cfg = s.cfg ∧ t.drv = s.drv := by
  cases exec_effect h <;> exact ⟨rfl, rfl, rfl⟩

/-- Settles O29: the registers outside R22's list are kept, and each line of the statement names a register outside it. -/
theorem registersWrittenAreTheListedOnes : Obligations.RegistersWrittenAreTheListedOnes := by
  intro i s t h r hr
  refine exec_regsAgreeBut h r ?_
  cases i with
  | ldImm | addImm | ldReg | orReg | andReg | xorReg | addReg | sub | shr | subn | shl | rnd | drw | ldVxDt | ldVxK | ldLoad =>
    simpa [writtenRegs] using hr
  | _ => exact List.not_mem_nil

/-- Settles O30, by the effects: I is written by one of them. -/
theorem onlyThreeInstructionsWriteI : Obligations.OnlyThreeInstructionsWriteI := by
  intro i s t h
  cases exec_effect h with
  | index w hi => exact .inr hi
  | _ => exact .inl rfl

/-- Settles O31, by the effects: the slots are written by a push, SP by a push and a pop. -/
theorem onlyCallAndRetChangeTheStack : Obligations.OnlyCallAndRetChangeTheStack := by
  intro i s t h
  cases exec_effect h with
  | call nnn hlt => exact ⟨.inr ⟨nnn, rfl⟩, .inr (.inl ⟨nnn, rfl⟩)⟩
  | ret hpos => exact ⟨.inl rfl, .inr (.inr rfl)⟩
  | _ => exact ⟨.inl rfl, .inl rfl⟩

/-- Settles O32, by the effects: each timer is written by one of them. -/
theorem onlyTheirLoadsWriteTheTimers : Obligations.OnlyTheirLoadsWriteTheTimers := by
  intro i s t h
  cases exec_effect h with
  | delay x b => exact ⟨.inr ⟨x, rfl⟩, .inl rfl⟩
  | sound x b => exact ⟨.inl rfl, .inr ⟨x, rfl⟩⟩
  | _ => exact ⟨.inl rfl, .inl rfl⟩

/-- Settles O33, by the effects: clearing and drawing write the framebuffer, no other does. -/
theorem onlyClsAndDrwWriteTheFramebuffer : Obligations.OnlyClsAndDrwWriteTheFramebuffer := by
  intro i s t h
  cases exec_effect h with
  | cls fb => exact .inr (.inl rfl)
  | drw x y n fb b => exact .inr (.inr ⟨x, y, n, rfl⟩)
  | _ => exact .inl rfl

/-- Settles O35: nothing outside is written, and by the effects a draw is taken by Cxkk alone. -/
theorem noInstructionReachesTheDriverSide : Obligations.NoInstructionReachesTheDriverSide := by
  intro i s t h
  obtain ⟨hkeys, hcfg, hdrv⟩ := exec_outside h
  refine ⟨hkeys, hcfg, hdrv, ?_⟩
  cases exec_effect h with
  | rnd x kk b r => exact .inr ⟨x, kk, rfl⟩
  | _ => exact .inl rfl

/-! ### What a step leaves besides the instruction's own effect -/

/-- What `execute_one` can do: run the fetched instruction, or take the fault of the fetch or of the decoder (R101). -/
theorem executeOne_cases (h : executeOne s = .next t) :
    (s.inWindow = true ∧ ∃ i, decode s.wordAtPc = .ok i ∧ exec i s = .next t) ∨
      (s.inWindow = true ∧ (∃ e, decode s.wordAtPc = .error e) ∧ t = s.raise .decodeFault (some s.wordAtPc) none) ∨
      (s.inWindow = false ∧ t = s.raise .addressFault none (some s.pc.toNat)) := by
  unfold executeOne at h
  split at h
  · next hin =>
    split at h
    · next i hi => exact .inl ⟨hin, i, hi, h⟩
    · next e he => cases h; exact .inr (.inl ⟨hin, ⟨e, he⟩, rfl⟩)
  · next hout => cases h; exact .inr (.inr ⟨Bool.not_eq_true _ ▸ hout, rfl⟩)

/-- The end of a slot writes the timers and the driver's side alone (R100, R253). -/
theorem endSlot_eq (n : Nat) (s : State) : ∃ dt st d, s.endSlot n = ((s.setDt dt).setSt st).setDrv d := by
  unfold State.endSlot
  split
  · exact ⟨s.dt, s.st, _, rfl⟩
  · split
    · exact ⟨_, _, _, rfl⟩
    · exact ⟨s.dt, s.st, _, rfl⟩

/-- Opening a step call writes the timers and the driver's side alone (R100, R253). -/
theorem beginStep_eq (n : Nat) (s : State) : ∃ dt st d, s.beginStep n = ((s.setDt dt).setSt st).setDrv d := by
  unfold State.beginStep
  split
  · exact ⟨s.dt, s.st, _, rfl⟩
  · split
    · exact ⟨_, _, _, rfl⟩
    · exact ⟨s.dt, s.st, _, rfl⟩

/-- A driver call that is no reset leaves PC and the stack, and the keypad latch unless it is setKeys (R258, R286). -/
theorem perform_frame {c : DriverCall} (h : perform c s = .next t) :
    (c = .reset ∧ t = s.resetEngine) ∨
      (t.pc = s.pc ∧ t.stack = s.stack ∧ (t.keys = s.keys ∨ ∃ k, c = .setKeys k)) := by
  obtain hreset | ⟨bytes, -, -, -, rfl⟩ | ⟨bytes, -, -, rfl⟩ | ⟨k, hk, rfl⟩ | ⟨n, -, rfl⟩ := perform_cases h
  · exact .inl hreset
  · exact .inr ⟨rfl, rfl, .inl rfl⟩
  · exact .inr ⟨rfl, rfl, .inl rfl⟩
  · exact .inr ⟨rfl, rfl, .inr ⟨k, hk⟩⟩
  · obtain ⟨dt, st, d, hbegin⟩ := beginStep_eq n s
    rw [hbegin]
    exact .inr ⟨rfl, rfl, .inl rfl⟩

/-- `execute_one` leaves the keypad latch (R29, R104). -/
theorem executeOne_keys (h : executeOne s = .next t) : t.keys = s.keys := by
  obtain ⟨-, i, -, hexec⟩ | ⟨-, -, rfl⟩ | ⟨-, rfl⟩ := executeOne_cases h
  · exact (exec_outside hexec).1
  · rfl
  · rfl

/-- Settles O28: a slot of a step call keeps the latch, and so does every driver call but the two. -/
theorem keysChangeOnlyBetweenStepCalls : Obligations.KeysChangeOnlyBetweenStepCalls := by
  intro s t h
  obtain ⟨n, u, -, -, hone, rfl⟩ | ⟨hleft, hcall⟩ := step_cases h
  · obtain ⟨dt, st, d, hend⟩ := endSlot_eq n u
    rw [hend]
    have hkeys : u.keys = s.keys := executeOne_keys hone
    exact .inl hkeys
  · obtain ⟨d, hd, -⟩ := nextCall_eq s
    rw [hd] at hcall
    obtain ⟨hreset, -⟩ | ⟨-, -, hkeys | hset⟩ := perform_frame hcall
    · exact .inr ⟨hleft, .inr hreset⟩
    · exact .inl hkeys
    · exact .inr ⟨hleft, .inl hset⟩

/-! ### The bounds of PC and of the return addresses -/

theorem addressesBounded_congr (hpc : t.pc = s.pc) (hstack : t.stack = s.stack) (h : AddressesBounded s) :
    AddressesBounded t := by
  rw [AddressesBounded, hpc, hstack]
  exact h

/-- The address after an instruction fetched at most at 0xFFE (R122). -/
theorem toNat_add_two_le {w : Word} (h : w.toNat ≤ 0xFFE) : (w + 2).toNat ≤ 0x1000 := by
  rw [BitVec.toNat_add]
  simp
  omega

/-- The end of a skip fetched at most at 0xFFE. -/
theorem toNat_add_four_le {w : Word} (h : w.toNat ≤ 0xFFE) : (w + 4).toNat ≤ 0x1002 := by
  rw [BitVec.toNat_add]
  simp
  omega

theorem zext16_toNat (nnn : Addr) : (zext16 nnn).toNat = nnn.toNat := by
  have := nnn.isLt
  simp [zext16]
  omega

/-- The largest jump target: 0xFFF + 0xFF (R26, R129). -/
theorem jump_toNat_le (nnn : Addr) (b : Byte) : (zext16 nnn + b.setWidth 16).toNat ≤ 0x10FE := by
  have ha := nnn.isLt
  have hb := b.isLt
  rw [BitVec.toNat_add, zext16_toNat, BitVec.toNat_setWidth]
  omega

/-- Every effect of an instruction fetched at most at 0xFFE keeps the bounds (R26, R122, R129). -/
theorem effect_addressesBounded (he : Effect s i t) (hpc : s.pc.toNat ≤ 0xFFE) (hs : AddressesBounded s) :
    AddressesBounded t := by
  have hnext : s.nextPc.toNat ≤ 0x1000 := toNat_add_two_le hpc
  obtain ⟨hb, hstack⟩ := hs
  cases he with
  | fault | wait => exact ⟨hb, hstack⟩
  | skip i c =>
    rw [State.skipIf_eq]
    cases c
    · exact ⟨hnext.trans (by decide), hstack⟩
    · exact ⟨(toNat_add_four_le hpc).trans (by decide), hstack⟩
  | jump i nnn b => exact ⟨jump_toNat_le nnn b, hstack⟩
  | call nnn hlt =>
    refine ⟨by simpa using jump_toNat_le nnn 0, fun j => ?_⟩
    rw [State.setPc_stack, State.setStack_stack, Vector.getElem_set]
    split
    · exact hnext
    · exact hstack j
  | ret hpos => exact ⟨(hstack ⟨s.sp.val - 1, by omega⟩).trans (by decide), hstack⟩
  | _ => exact ⟨hnext.trans (by decide), hstack⟩

/-- `execute_one` keeps the bounds: an instruction runs from inside the window alone (R101). -/
theorem executeOne_addressesBounded (h : executeOne s = .next t) (hs : AddressesBounded s) : AddressesBounded t := by
  obtain ⟨hin, i, -, hexec⟩ | ⟨-, -, rfl⟩ | ⟨-, rfl⟩ := executeOne_cases h
  · obtain ⟨-, hmax⟩ := (State.inWindow_iff s).1 hin
    exact effect_addressesBounded (exec_effect hexec) hmax hs
  · exact hs
  · exact hs

theorem addressesBounded_reset : AddressesBounded State.reset :=
  ⟨by decide, by decide⟩

/-- Settles O21: a slot keeps the bounds by `execute_one`, a driver call leaves PC and the stack or resets them. -/
theorem pcAndReturnAddressesStayBounded : Obligations.PcAndReturnAddressesStayBounded := by
  intro s t hs h
  obtain ⟨n, u, -, -, hone, rfl⟩ | ⟨-, hcall⟩ := step_cases h
  · obtain ⟨dt, st, d, hend⟩ := endSlot_eq n u
    rw [hend]
    exact addressesBounded_congr (s := u) rfl rfl (executeOne_addressesBounded hone hs)
  · obtain ⟨d, hd, -⟩ := nextCall_eq s
    rw [hd] at hcall
    obtain ⟨-, rfl⟩ | ⟨hpc, hstack, -⟩ := perform_frame hcall
    · exact addressesBounded_reset
    · exact addressesBounded_congr hpc hstack hs

/-! ### Reset -/

/-- Settles O23: memory is empty, PC and the slots are at their reset values, and no fault is latched. -/
theorem resetStateIsConsistent : Obligations.ResetStateIsConsistent :=
  ⟨rfl, addressesBounded_reset, trivial⟩

/-- The reset contents of byte `r` of glyph `d` (R53). -/
theorem unlisted_glyph (g : Vector (Vector Byte 5) 16) (d : Fin 16) (r : Fin 5) :
    Memory.unlisted g (0x050 + 5 * d.val + r.val) = g[d.val][r.val] := by
  have hd : (0x050 + 5 * d.val + r.val - glyphBase) / 5 = d.val := by unfold glyphBase; omega
  have hr : (0x050 + 5 * d.val + r.val - glyphBase) % 5 = r.val := by unfold glyphBase; omega
  rw [Memory.unlisted, dif_pos (by unfold glyphBase glyphEnd; omega)]
  simp only [hd, hr]

/-- The reset contents outside the glyphs (R32). -/
theorem unlisted_outside (g : Vector (Vector Byte 5) 16) {a : Nat} (h : a < 0x050 ∨ 0x09F < a) : Memory.unlisted g a = 0 := by
  rw [Memory.unlisted, dif_neg (by unfold glyphBase glyphEnd; omega)]

theorem byteAt_resetEngine (a : Nat) : s.resetEngine.byteAt a = Memory.unlisted s.cfg.glyphs a := rfl

/-- The driver's reset, when it is the next call (R280). -/
theorem step_reset {rest : List DriverCall} (hleft : s.drv.left = 0) (hscript : s.drv.script = .reset :: rest) :
    step s = .next (s.setDrv { s.drv with script := rest }).resetEngine := by
  rw [step_of_idle hleft, driverTurn, nextCall_script hscript]
  rfl

/-- Settles O24: the step is the reset, whose state is read off piece by piece. -/
theorem resetGivesEveryResetValue : Obligations.ResetGivesEveryResetValue := by
  intro s rest hleft hscript
  refine ⟨_, step_reset hleft hscript, ?regs, rfl, rfl, rfl, ?slots, rfl, rfl, ?keys, ?pixels, rfl, ?zero, ?glyphs,
    rfl, rfl, rfl⟩
  case regs => exact fun r => Vector.getElem_replicate r.isLt
  case slots => exact fun j => Vector.getElem_replicate j.isLt
  case keys => exact fun k => Vector.getElem_replicate k.isLt
  case pixels => exact fun x y => by simp [pixel, State.resetEngine, State.reset]
  case zero => exact fun a ha => (byteAt_resetEngine a).trans (unlisted_outside _ ha)
  case glyphs => exact fun d r => (byteAt_resetEngine _).trans (unlisted_glyph _ d r)

/-! ### Calls and returns -/

/-- CALL with room on the stack: the address after it goes into slot SP (R124). -/
theorem exec_call_of_lt (nnn : Addr) (hlt : s.sp.val < 16) :
    ∃ t, exec (.call nnn) s = .next t ∧ t.pc = zext16 nnn ∧ t.sp.val = s.sp.val + 1 ∧
      t.stack = s.stack.set s.sp.val (s.pc + 2) hlt := by
  change ∃ t, execCall nnn s = _ ∧ _
  rw [execCall, State.push_of_lt s hlt]
  exact ⟨_, rfl, rfl, rfl, rfl⟩

/-- Settles O60: with SP = j + 1 the pop answers slot j. -/
theorem retCompletesOnEveryNonEmptyStack : Obligations.RetCompletesOnEveryNonEmptyStack := by
  intro j s hsp
  change execRet s = _
  rw [execRet, State.pop_of_pos s (by omega)]
  simp only [hsp, Nat.add_sub_cancel]
  rfl

/-- An instruction that answers a next state, and then a run from there. -/
theorem runList_cons {is : List Instr} {pcs : List Word} (h : exec i s = .next t) (hrun : runList is t = some (u, pcs)) :
    runList (i :: is) s = some (u, t.pc :: pcs) := by
  simp [runList, h, hrun]

/-- One run after another. -/
theorem runList_append {is js : List Instr} {ps qs : List Word} (hi : runList is s = some (t, ps))
    (hj : runList js t = some (u, qs)) : runList (is ++ js) s = some (u, ps ++ qs) := by
  induction is generalizing s ps with
  | nil => cases hi; exact hj
  | cons i is ih =>
    cases hexec : exec i s with
    | next r =>
      rw [runList, hexec, Option.map_eq_some_iff] at hi
      obtain ⟨⟨u, pcs⟩, hrun, heq⟩ := hi
      cases heq
      exact runList_cons hexec (ih hrun)
    | fault r => rw [runList, hexec] at hi; cases hi
    | refused r => rw [runList, hexec] at hi; cases hi

/-- Settles O42, by induction on the CALLs: the first CALL's return address lies under all that the others push, and the last RET
pops it. -/
theorem nestedCallsReturnInReverseOrder : Obligations.NestedCallsReturnInReverseOrder := by
  intro targets
  induction targets with
  | nil => exact fun s _ => ⟨s, s, rfl, rfl, rfl, fun _ _ => rfl⟩
  | cons nnn targets ih =>
    intro s hroom
    rw [List.length_cons] at hroom
    have hlt : s.sp.val < 16 := by omega
    obtain ⟨r, hcall, hpc, hrsp, hrstack⟩ := exec_call_of_lt nnn hlt
    obtain ⟨t, u, hcalls, hrets, husp, huslots⟩ := ih r (by omega)
    have hret := retCompletesOnEveryNonEmptyStack ⟨s.sp.val, hlt⟩ u (by rw [husp, hrsp])
    have hkept : ∀ j : Fin 16, j.val < s.sp.val + 1 → u.stack[j.val] = (s.stack.set s.sp.val (s.pc + 2) hlt)[j.val] :=
      fun j hj => (huslots j (hrsp ▸ hj)).trans (by simp only [hrstack])
    have htop : u.stack[s.sp.val] = s.pc + 2 :=
      (hkept ⟨s.sp.val, hlt⟩ (Nat.lt_succ_self _)).trans (Vector.getElem_set_self ..)
    refine ⟨t, { u with pc := u.stack[s.sp.val], sp := s.sp }, ?_, ?_, rfl, fun j hj => ?_⟩
    · rw [List.map_cons, runList_cons hcall hcalls, hpc, List.map_cons]
    · rw [List.length_cons, List.replicate_succ', runList_append hrets (runList_cons hret rfl)]
      simp [htop, hpc]
    · exact (hkept j (Nat.lt_succ_of_lt hj)).trans (Vector.getElem_set_ne _ _ (Nat.ne_of_gt hj))

end Sys2Proof.Machine
end

section
/-! PROOFS of the family 20_memory.md: what an instruction writes to memory, said once; and the canonical form, the frame of memory and
the protected glyphs that follow from it. -/

namespace Sys2Proof.Machine

variable {s t : State} {i : Instr}

/-! ### What one instruction writes to memory -/

/-- How many bytes from I on an instruction may write: Fx33 three, Fx55 one for each register up to Vx, any other none (R184, R185). -/
def writtenBytes : Instr → Nat
  | .ldB _ => 3
  | .ldStore x => x.val + 1
  | _ => 0

/-- The test of the checked write is the statements' `Writable` (R51). -/
theorem writable_iff {base len : Nat} :
    Writable s base len ↔ ∀ c, base ≤ c → c < base + len → writeRefused s.cfg.glyphWrites c = false := by
  simp only [Writable, WriteFaults, ← writeRefused_iff, Bool.not_eq_true]

theorem writable_zero (base : Nat) : Writable s base 0 := fun _ _ _ => by omega

/-- A writable range ends inside memory, unless it is empty (R51). -/
theorem Writable.add_succ_le {base len : Nat} (h : Writable s base (len + 1)) : base + (len + 1) ≤ memSize :=
  Nat.lt_of_not_le fun hout => h (base + len) (by omega) (by omega) (.inl hout)

/-- An instruction that answers a next state has written one writable block of bytes at I, empty unless it is one of the two stores
(R50, R51). -/
theorem exec_mem (h : exec i s = .next t) :
    ∃ bs, bs.length ≤ writtenBytes i ∧ Writable s s.i.toNat bs.length ∧
      t.mem = Memory.setBytes s.cfg.glyphs s.mem s.i.toNat bs := by
  cases exec_effect h with
  | bcd x hw => exact ⟨decimalDigits (s.reg x), Nat.le_refl _, writable_iff.2 hw, rfl⟩
  | store x hw =>
    have hlen := s.regsUpTo_length x
    exact ⟨s.regsUpTo x, Nat.le_of_eq hlen, writable_iff.2 (hlen ▸ hw), rfl⟩
  | _ => exact ⟨[], Nat.zero_le _, writable_zero _, rfl⟩

/-- A byte is kept unless it lies in the range an instruction may write and a write to it raises no fault (R50, R51). -/
theorem exec_byteAt_eq (h : exec i s = .next t) {a : Nat}
    (ha : s.i.toNat ≤ a → a < s.i.toNat + writtenBytes i → WriteFaults s a) : t.byteAt a = s.byteAt a := by
  obtain ⟨bs, hlen, hwritable, hmem⟩ := exec_mem h
  obtain ⟨-, hcfg, -⟩ := exec_outside h
  have hout : ¬ (s.i.toNat ≤ a ∧ a < s.i.toNat + bs.length) :=
    fun ⟨hlo, hhi⟩ => hwritable a hlo hhi (ha hlo (by omega))
  calc t.byteAt a = Memory.get s.cfg.glyphs (Memory.setBytes s.cfg.glyphs s.mem s.i.toNat bs) a := by
        rw [State.byteAt, hcfg, hmem]
    _ = s.byteAt a := (State.byteAt_setBytes s _ a bs).trans (if_neg hout)

/-- Every byte outside the range an instruction may write is kept (R50). -/
theorem exec_memoryAgreesOutside (h : exec i s = .next t) : MemoryAgreesOutside s.i.toNat (writtenBytes i) s t :=
  fun _ ha => exec_byteAt_eq h fun _ _ => by omega

/-- Settles O34: outside the range an instruction may write every byte is kept, and the range is empty for all but the two stores. -/
theorem onlyTheTwoStoresWriteMemory : Obligations.OnlyTheTwoStoresWriteMemory := by
  intro i s t h
  have hframe := exec_memoryAgreesOutside h
  cases i with
  | ldB x => exact hframe
  | ldStore x => exact hframe
  | _ => exact fun a => hframe a (Nat.lt_or_ge a _)

/-- Settles O36: under the policy fault a write to a glyph byte faults, so no instruction has written one. -/
theorem protectedGlyphsNeverChange : Obligations.ProtectedGlyphsNeverChange := by
  intro i s t hpolicy h a hlo hhi
  have hfaults : WriteFaults s a := .inr ⟨hpolicy, hlo, hhi⟩
  exact exec_byteAt_eq h fun _ _ => hfaults

/-! ### The canonical form -/

/-- The canonical form depends on memory and the glyph table alone. -/
theorem memoryCanonical_congr (hmem : t.mem = s.mem) (hcfg : t.cfg = s.cfg) (hs : MemoryCanonical s) : MemoryCanonical t := by
  rw [MemoryCanonical, hmem, hcfg]
  exact hs

/-- A block written to a writable range keeps the canonical form (R51). -/
theorem wf_setBytes_of_writable {base : Nat} {bs : List Byte} (hs : MemoryCanonical s) (hwritable : Writable s base bs.length) :
    Memory.wf s.cfg.glyphs (Memory.setBytes s.cfg.glyphs s.mem base bs) = true := by
  cases bs with
  | nil => exact hs
  | cons b bs => exact Memory.wf_setBytes _ hs hwritable.add_succ_le

theorem exec_memoryCanonical (h : exec i s = .next t) (hs : MemoryCanonical s) : MemoryCanonical t := by
  obtain ⟨bs, -, hwritable, hmem⟩ := exec_mem h
  obtain ⟨-, hcfg, -⟩ := exec_outside h
  rw [MemoryCanonical, hcfg, hmem]
  exact wf_setBytes_of_writable hs hwritable

theorem executeOne_memoryCanonical (h : executeOne s = .next t) (hs : MemoryCanonical s) : MemoryCanonical t := by
  obtain ⟨-, i, -, hexec⟩ | ⟨-, -, rfl⟩ | ⟨-, rfl⟩ := executeOne_cases h
  · exact exec_memoryCanonical hexec hs
  · exact hs
  · exact hs

/-- An image that fits ends inside memory (R282). -/
theorem storeRom_memoryCanonical {bytes : List Byte} (hfits : bytes.length ≤ romMax) (hs : MemoryCanonical s) :
    MemoryCanonical (s.storeRom bytes) :=
  Memory.wf_setBytes _ hs (by unfold romMax at hfits; unfold romBase memSize; omega)

/-- Every driver call keeps the canonical form: one stores an image that fits, one empties memory, the others leave it (R258). -/
theorem perform_memoryCanonical {c : DriverCall} (h : perform c s = .next t) (hs : MemoryCanonical s) : MemoryCanonical t := by
  obtain ⟨-, rfl⟩ | ⟨bytes, -, hfits, -, rfl⟩ | ⟨bytes, -, -, rfl⟩ | ⟨k, -, rfl⟩ | ⟨n, -, rfl⟩ := perform_cases h
  · exact (rfl : Memory.wf s.cfg.glyphs [] = true)
  · exact storeRom_memoryCanonical hfits hs
  · exact hs
  · exact hs
  · obtain ⟨dt, st, d, hbegin⟩ := beginStep_eq n s
    exact hbegin ▸ hs

/-- Settles O20: a slot keeps the form by `execute_one`, a driver call by what it does; the end of a slot and the taking of the call
leave memory. -/
theorem memoryStaysCanonical : Obligations.MemoryStaysCanonical := by
  intro s t hs h
  obtain ⟨n, u, -, -, hone, rfl⟩ | ⟨-, hcall⟩ := step_cases h
  · obtain ⟨dt, st, d, hend⟩ := endSlot_eq n u
    rw [hend]
    exact memoryCanonical_congr (s := u) rfl rfl (executeOne_memoryCanonical hone hs)
  · obtain ⟨d, hd, -⟩ := nextCall_eq s
    rw [hd] at hcall
    exact perform_memoryCanonical hcall hs

/-! ### The fetched instruction -/

theorem decode_of_decodeBytes {hi lo : Byte} (h : decodeBytes [hi, lo] = .ok (i, [])) : decode (wordOfBytes hi lo) = .ok i := by
  rw [decodeBytes] at h
  cases hd : decode (wordOfBytes hi lo) with
  | ok j => rw [hd] at h; cases h; rfl
  | error e => rw [hd] at h; cases h

/-- Inside the fetch window `execute_one` is the handler of the decoded instruction (R101). -/
theorem executeOne_of_decode (hin : s.inWindow = true) (hdecode : decode s.wordAtPc = .ok i) : executeOne s = exec i s := by
  rw [executeOne, if_pos hin, hdecode]

/-- Settles O6: the step is `execute_one` and the end of the slot, and `execute_one` runs the decoded instruction. -/
theorem stepRunsTheFetchedInstruction : Obligations.StepRunsTheFetchedInstruction := by
  intro s n i hleft hhalt hmin hmax hbytes
  have hin : s.inWindow = true := s.inWindow_iff.2 ⟨hmin, hmax⟩
  rw [step_of_left hleft hhalt, executeOne_of_decode hin (decode_of_decodeBytes hbytes)]
  cases exec i s <;> rfl

end Sys2Proof.Machine
end

section
/-! PROOFS of the family 30_encoding.md: what the decoder answers, said once, and how the decoder, the encoder and the opcode map agree
(R70, R73, R76, R78). -/

namespace Sys2Proof

variable {op : Word} {i : Instr} {r : OpcodeRow}

/-! ### A word is put together from its own fields (R70) -/

section Pack

variable {f n : BitVec 4}

theorem extract_fieldF (hf : fieldF op = f.toNat) : op.extractLsb' 12 4 = f := BitVec.eq_of_toNat_eq hf

theorem packNNN_fields (hf : fieldF op = f.toNat) : packNNN f (fieldNNN op) = op := by
  rw [← extract_fieldF hf]
  unfold packNNN nibble fieldNNN
  apply BitVec.eq_of_getLsbD_eq; intro j hj
  interval_cases j <;> simp

theorem packXKK_fields (hf : fieldF op = f.toNat) : packXKK f (fieldX op) (fieldKK op) = op := by
  have hx : regField (fieldX op) = op.extractLsb' 8 4 := rfl
  rw [← extract_fieldF hf, packXKK, hx]
  unfold nibble fieldKK
  apply BitVec.eq_of_getLsbD_eq; intro j hj
  interval_cases j <;> simp

theorem packXYN_fields (hf : fieldF op = f.toNat) : packXYN f (fieldX op) (fieldY op) (regField (fieldN op)) = op := by
  have hx : regField (fieldX op) = op.extractLsb' 8 4 := rfl
  have hy : regField (fieldY op) = op.extractLsb' 4 4 := rfl
  have hn : regField (fieldN op) = op.extractLsb' 0 4 := rfl
  rw [← extract_fieldF hf, packXYN, hx, hy, hn]
  unfold nibble
  apply BitVec.eq_of_getLsbD_eq; intro j hj
  interval_cases j <;> simp

/-- A word of family `f` with the low byte `kk` (families E and F). -/
theorem packXKK_of_fields {kk : Byte} (hf : fieldF op = f.toNat) (hkk : (fieldKK op).toNat = kk.toNat) :
    packXKK f (fieldX op) kk = op := by
  rw [← BitVec.eq_of_toNat_eq hkk, packXKK_fields hf]

/-- A word of family `f` with the low nibble `n` (families 5, 8 and 9; 5 and 9 test for the nibble 0). -/
theorem packXYN_of_fields (hf : fieldF op = f.toNat) (hn : (fieldN op).val = n.toNat) :
    packXYN f (fieldX op) (fieldY op) n = op := by
  have hn : regField (fieldN op) = n := BitVec.eq_of_toNat_eq hn
  rw [← hn, packXYN_fields hf]

theorem packXYN_zero_of_fields (hf : fieldF op = f.toNat) (hn : fieldN op = 0) : packXYN f (fieldX op) (fieldY op) 0 = op :=
  packXYN_of_fields hf (congrArg Fin.val hn)

end Pack

/-! ### The mask of a row keeps the fields that select the row (R73, R76) -/

theorem covers_iff : r.covers op = true ↔ op &&& r.mask = r.code := beq_iff_eq

theorem fieldF_of_covers (h : r.covers op = true) (hmask : fieldF r.mask = 0xF) : fieldF op = fieldF r.code := by
  have hones : r.mask.extractLsb' 12 4 = BitVec.allOnes 4 := extract_fieldF hmask
  rw [← covers_iff.1 h, fieldF, fieldF, BitVec.extractLsb'_and, hones, BitVec.and_allOnes]

theorem fieldN_of_covers (h : r.covers op = true) (hmask : fieldN r.mask = 0xF) : fieldN op = fieldN r.code := by
  have hones : r.mask.extractLsb' 0 4 = BitVec.allOnes 4 := BitVec.toFin_inj.1 hmask
  rw [← covers_iff.1 h, fieldN, fieldN, BitVec.extractLsb'_and, hones, BitVec.and_allOnes]

theorem fieldKK_of_covers (h : r.covers op = true) (hmask : fieldKK r.mask = 0xFF) : fieldKK op = fieldKK r.code := by
  have hones : r.mask.extractLsb' 0 8 = BitVec.allOnes 8 := hmask
  rw [← covers_iff.1 h, fieldKK, fieldKK, BitVec.extractLsb'_and, hones, BitVec.and_allOnes]

/-- The word of an instruction is covered by the instruction's own row, a row of the map (R73). -/
theorem encodingRow (i : Instr) : Laws.EncodingRow.Statement i := by
  open Laws.EncodingRow in
  cases i
  exacts [cls, ret, jp _, call _, seImm _ _, sneImm _ _, seReg _ _, ldImm _ _, addImm _ _, ldReg _ _, orReg _ _, andReg _ _,
    xorReg _ _, addReg _ _, sub _ _, shr _ _, subn _ _, shl _ _, sneReg _ _, ldI _, jpV0 _, rnd _ _, drw _ _ _, skp _, sknp _,
    ldVxDt _, ldVxK _, ldDtVx _, ldStVx _, addI _, ldF _, ldB _, ldStore _, ldLoad _]

/-! ### What the decoder answers (R76), said once -/

/-- An answer of the decoder that loses nothing of the word: an instruction that assembles to it, or the rejection that names it. -/
def Faithful (op : Word) : Except DecodeReject Instr → Prop
  | .ok i => encode i = op
  | .error e => e = .illegal op

theorem decode0_faithful (op : Word) : Faithful op (decode0 op) := by
  unfold decode0
  split
  · next hcls => exact hcls.symm
  · split
    · next hret => exact hret.symm
    · rfl

theorem decode8_faithful (hf : fieldF op = 0x8) : Faithful op (decode8 op) := by
  unfold decode8
  split
  iterate 9 next hn => exact packXYN_of_fields hf hn
  rfl

theorem decodeE_faithful (hf : fieldF op = 0xE) : Faithful op (decodeE op) := by
  unfold decodeE
  split
  iterate 2 next hkk => exact packXKK_of_fields hf hkk
  rfl

theorem decodeF_faithful (hf : fieldF op = 0xF) : Faithful op (decodeF op) := by
  unfold decodeF
  split
  iterate 9 next hkk => exact packXKK_of_fields hf hkk
  rfl

/-- One case a family, in the order of R76. -/
theorem decode_faithful (op : Word) : Faithful op (decode op) := by
  unfold decode
  split
  · exact decode0_faithful op
  iterate 2 next hf => exact packNNN_fields hf
  iterate 2 next hf => exact packXKK_fields hf
  · next hf =>
    split
    · next hn => exact packXYN_zero_of_fields hf hn
    · rfl
  iterate 2 next hf => exact packXKK_fields hf
  · next hf => exact decode8_faithful hf
  · next hf =>
    split
    · next hn => exact packXYN_zero_of_fields hf hn
    · rfl
  iterate 2 next hf => exact packNNN_fields hf
  · next hf => exact packXKK_fields hf
  · next hf => exact packXYN_fields hf
  · next hf => exact decodeE_faithful hf
  · next hf => exact decodeF_faithful hf
  · rfl

/-- Settles O2: the decoder's answer is faithful, and this one is an instruction. -/
theorem encodeInvertsDecode : Obligations.EncodeInvertsDecode := by
  intro op i h
  have hfaithful := decode_faithful op
  rwa [h] at hfaithful

/-- Settles O1, form by form: the family and the selector read back from the assembled word pick the instruction's arm, and the
operands read back as they were. -/
theorem decodeInvertsEncode : Obligations.DecodeInvertsEncode := by
  intro i
  cases i with
  | cls | ret => rfl
  | jp | call | ldI | jpV0 =>
    unfold encode decode
    rw [fieldF_packNNN, fieldNNN_packNNN]
    rfl
  | seImm | sneImm | ldImm | addImm | rnd =>
    unfold encode decode
    rw [fieldF_packXKK, fieldX_packXKK, fieldKK_packXKK]
    rfl
  | seReg | sneReg | drw =>
    unfold encode decode
    rw [fieldF_packXYN, fieldX_packXYN, fieldY_packXYN, fieldN_packXYN]
    rfl
  | ldReg | orReg | andReg | xorReg | addReg | sub | shr | subn | shl =>
    unfold encode decode decode8
    rw [fieldF_packXYN, fieldX_packXYN, fieldY_packXYN, fieldN_packXYN]
    rfl
  | skp | sknp =>
    unfold encode decode decodeE
    rw [fieldF_packXKK, fieldX_packXKK, fieldKK_packXKK]
    rfl
  | ldVxDt | ldVxK | ldDtVx | ldStVx | addI | ldF | ldB | ldStore | ldLoad =>
    unfold encode decode decodeF
    rw [fieldF_packXKK, fieldX_packXKK, fieldKK_packXKK]
    rfl

/-! ### The decoder and the opcode map (R73, R75) -/

/-- A word covered by a row of the map decodes to some instruction: the mask keeps what the decoder selects by. -/
theorem decode_ok_of_covers (h : i.row.covers op = true) : ∃ j, decode op = .ok j := by
  cases i with
  | cls | ret =>
    obtain rfl : op = _ := (BitVec.and_allOnes).symm.trans (covers_iff.1 h)
    exact ⟨_, rfl⟩
  | jp | call | seImm | sneImm | ldImm | addImm | ldI | jpV0 | rnd | drw =>
    dsimp only [Instr.row] at h
    unfold decode
    rw [fieldF_of_covers h rfl]
    exact ⟨_, rfl⟩
  | seReg | sneReg =>
    dsimp only [Instr.row] at h
    unfold decode
    rw [fieldF_of_covers h rfl, fieldN_of_covers h rfl]
    exact ⟨_, rfl⟩
  | ldReg | orReg | andReg | xorReg | addReg | sub | shr | subn | shl =>
    dsimp only [Instr.row] at h
    unfold decode decode8
    rw [fieldF_of_covers h rfl, fieldN_of_covers h rfl]
    exact ⟨_, rfl⟩
  | skp | sknp =>
    dsimp only [Instr.row] at h
    unfold decode decodeE
    rw [fieldF_of_covers h rfl, fieldKK_of_covers h rfl]
    exact ⟨_, rfl⟩
  | ldVxDt | ldVxK | ldDtVx | ldStVx | addI | ldF | ldB | ldStore | ldLoad =>
    dsimp only [Instr.row] at h
    unfold decode decodeF
    rw [fieldF_of_covers h rfl, fieldKK_of_covers h rfl]
    exact ⟨_, rfl⟩

theorem row_covers_of_decode (h : decode op = .ok i) : i.row.covers op = true := by
  obtain ⟨hcovers, -⟩ := encodingRow i
  rw [encodeInvertsDecode op i h] at hcovers
  exact covers_iff.2 hcovers

theorem wordWellFormed_iff : wordWellFormed op = true ↔ ∃ r ∈ opcodeMap, r.covers op = true := List.any_eq_true

theorem wordWellFormed_of_decode (h : decode op = .ok i) : wordWellFormed op = true := by
  obtain ⟨-, hmem⟩ := encodingRow i
  exact wordWellFormed_iff.2 ⟨i.row, hmem, row_covers_of_decode h⟩

theorem decode_ok_of_wordWellFormed (h : wordWellFormed op = true) : ∃ i, decode op = .ok i := by
  obtain ⟨r, hmem, hcovers⟩ := wordWellFormed_iff.1 h
  obtain ⟨i, -, rfl⟩ := List.mem_map.1 hmem
  exact decode_ok_of_covers hcovers

theorem decode_illegal_of_not_wordWellFormed (h : wordWellFormed op = false) : decode op = .error (.illegal op) := by
  have hfaithful := decode_faithful op
  cases hdecode : decode op with
  | ok i => exact absurd (wordWellFormed_of_decode hdecode) (by simp [h])
  | error e =>
    rw [hdecode] at hfaithful
    exact congrArg _ hfaithful

/-- Settles O3: a covered word is decoded, to an instruction whose row covers it; a decoded word is covered. -/
theorem decoderAcceptsExactlyTheOpcodeMap : Obligations.DecoderAcceptsExactlyTheOpcodeMap := by
  refine fun op => ⟨fun hwf => ?_, decode_illegal_of_not_wordWellFormed⟩
  obtain ⟨i, hdecode⟩ := decode_ok_of_wordWellFormed hwf
  exact ⟨i, hdecode, row_covers_of_decode hdecode⟩

/-! ### No word has two rows (R73) -/

/-- Two rows that some bit fixed by both tells apart. -/
def OpcodeRow.Disjoint (r r' : OpcodeRow) : Prop := r.code &&& r'.mask ≠ r'.code &&& r.mask

theorem not_covers_of_disjoint {r' : OpcodeRow} (hdisjoint : r.Disjoint r') (h : r.covers op = true) : ¬ r'.covers op = true := by
  intro h'
  rw [covers_iff] at h h'
  exact hdisjoint <| calc
    r.code &&& r'.mask = op &&& r.mask &&& r'.mask := by rw [h]
    _ = op &&& r'.mask &&& r.mask := by rw [BitVec.and_assoc, BitVec.and_comm r.mask, BitVec.and_assoc]
    _ = r'.code &&& r.mask := by rw [h']

theorem opcodeMap_pairwise_disjoint : opcodeMap.Pairwise OpcodeRow.Disjoint := by
  unfold OpcodeRow.Disjoint
  decide

/-- Among pairwise disjoint rows at most one covers a word: the first two that did would overlap. -/
theorem length_filter_covers_le_one {rows : List OpcodeRow} (hrows : rows.Pairwise OpcodeRow.Disjoint) (op : Word) :
    (rows.filter (·.covers op)).length ≤ 1 := by
  have hpairwise := hrows.filter (·.covers op)
  have hcovers (r) (hr : r ∈ rows.filter (·.covers op)) : r.covers op = true := (List.mem_filter.1 hr).2
  generalize rows.filter (·.covers op) = covering at hpairwise hcovers
  match covering with
  | [] | [_] => simp
  | r :: r' :: _ =>
    have hdisjoint : r.Disjoint r' := List.rel_of_pairwise_cons hpairwise List.mem_cons_self
    exact absurd (hcovers r' (by simp)) (not_covers_of_disjoint hdisjoint (hcovers r (by simp)))

/-- Settles O4: the rows of the map are pairwise disjoint. -/
theorem opcodeRowsNeverOverlap : Obligations.OpcodeRowsNeverOverlap :=
  ⟨rfl, length_filter_covers_le_one opcodeMap_pairwise_disjoint⟩

/-- Settles O5, by evaluating the decoder on each word. -/
theorem specWordsDecode : Obligations.SpecWordsDecode := by
  unfold Obligations.SpecWordsDecode
  decide

end Sys2Proof
end

section
/-! PROOFS of the family 40_cycle.md: the fault latch, where PC is left, the end of a slot, and the step call as a whole, run by the
machine slot by slot. -/

namespace Sys2Proof.Machine

variable {s t u : State} {i : Instr}

/-! ### The beginning and the end of a slot -/

/-- The end of a step call takes one from each timer, never below 0 (R100, R253). -/
theorem endStep_ticks (s : State) : s.endStep.dt.toNat = s.dt.toNat - 1 ∧ s.endStep.st.toNat = s.st.toNat - 1 :=
  ⟨tickByte_toNat s.dt, tickByte_toNat s.st⟩

/-- A fault ends the step call with no tick (R100). -/
theorem endSlot_halted {r : FaultRecord} (n : Nat) (hhalt : s.halt = some r) : s.endSlot n = s.returning (.halted r) := by
  simp only [State.endSlot, hhalt]

/-- The last slot ends the step call (R100). -/
theorem endSlot_zero (hhalt : s.halt = none) : s.endSlot 0 = s.endStep := by
  simp only [State.endSlot, hhalt, if_pos]

/-- Any other slot leaves the instructions still to run (R100). -/
theorem endSlot_of_ne_zero {n : Nat} (hn : n ≠ 0) (hhalt : s.halt = none) :
    s.endSlot n = s.setDrv { s.drv with left := n } := by
  simp only [State.endSlot, hhalt, if_neg hn]

/-- The end of a slot does not read the count of the instructions left. -/
theorem endSlot_setLeft (n l : Nat) (s : State) : (s.setDrv { s.drv with left := l }).endSlot n = s.endSlot n := by
  simp only [State.endSlot, State.setDrv_halt]
  cases s.halt <;> rfl

/-- Opening a step call of `n` instructions leaves the engine where the end of a slot with `n` more to run would (R100). -/
theorem beginStep_eq_endSlot (n : Nat) (s : State) :
    s.beginStep n = (s.setDrv { s.drv with fresh := false }).endSlot n := rfl

/-- A step call of a halted engine ends where it begins (R248). -/
theorem beginStep_halted {r : FaultRecord} (n : Nat) (hhalt : s.halt = some r) :
    s.beginStep n = (s.setDrv { s.drv with fresh := false }).returning (.halted r) :=
  (beginStep_eq_endSlot n s).trans (endSlot_halted n hhalt)

/-- A step call of no instructions ends where it begins (decision D19). -/
theorem beginStep_zero (hhalt : s.halt = none) : s.beginStep 0 = (s.setDrv { s.drv with fresh := false }).endStep :=
  (beginStep_eq_endSlot 0 s).trans (endSlot_zero hhalt)

/-! ### The fault latch -/

/-- An instruction leaves HALT, or takes a fault of a kind and with an addr that R245 and R247 allow. -/
theorem exec_halt (h : exec i s = .next t) :
    t.halt = s.halt ∨
      ∃ k a, k ≠ .romTooLarge ∧ (a.isSome = true ↔ k = .addressFault) ∧ t = s.raiseIn i k a := by
  cases exec_effect h with
  | fault i k a hk ha => exact .inr ⟨k, a, hk, ha, rfl⟩
  | _ => exact .inl rfl

/-- `execute_one` leaves HALT, or takes a fault of a kind and with an addr that R245 and R247 allow (R101). -/
theorem executeOne_halt (h : executeOne s = .next t) :
    t.halt = s.halt ∨
      ∃ k op a, k ≠ .romTooLarge ∧ (a.isSome = true ↔ k = .addressFault) ∧ t = s.raise k op a := by
  obtain ⟨-, i, -, hexec⟩ | ⟨-, -, rfl⟩ | ⟨-, rfl⟩ := executeOne_cases h
  · obtain hhalt | ⟨k, a, hk, ha, rfl⟩ := exec_halt hexec
    · exact .inl hhalt
    · exact .inr ⟨k, some (encode i), a, hk, ha, rfl⟩
  · exact .inr ⟨_, _, _, by decide, by decide, rfl⟩
  · exact .inr ⟨_, _, _, by decide, by simp, rfl⟩

theorem haltConsistent_of_halt_eq_none (hhalt : s.halt = none) : HaltConsistent s := by
  rw [HaltConsistent, hhalt]
  trivial

/-- The latch's consistency depends on HALT, PC and the running step call alone. -/
theorem haltConsistent_congr (hhalt : t.halt = s.halt) (hpc : t.pc = s.pc) (hleft : s.drv.left = 0 → t.drv.left = 0)
    (hs : HaltConsistent s) : HaltConsistent t := by
  unfold HaltConsistent at *
  rw [hhalt, hpc]
  cases hr : s.halt with
  | none => trivial
  | some r =>
    rw [hr] at hs
    obtain ⟨hrpc, hkind, haddr, hidle⟩ := hs
    exact ⟨hrpc, hkind, haddr, hleft hidle⟩

/-- A fault that ends the slot of a step call leaves the latch consistent (R100, R246, R247). -/
theorem haltConsistent_endSlot_raise {k : FaultKind} {op : Option Word} {a : Option Nat} (hk : k ≠ .romTooLarge)
    (ha : a.isSome = true ↔ k = .addressFault) (n : Nat) : HaltConsistent ((s.raise k op a).endSlot n) :=
  ⟨rfl, hk, ha, rfl⟩

theorem beginStep_haltConsistent (n : Nat) (hs : HaltConsistent s) : HaltConsistent (s.beginStep n) := by
  cases hhalt : s.halt with
  | none =>
    obtain ⟨dt, st, d, hbegin⟩ := beginStep_eq n s
    rw [hbegin]
    exact haltConsistent_of_halt_eq_none hhalt
  | some r =>
    rw [beginStep_halted n hhalt]
    exact haltConsistent_congr (s := s) rfl rfl (fun _ => rfl) hs

/-- Every driver call keeps the latch consistent: reset clears it, the others leave HALT and PC and open no step call on a halted
engine (R248, R258). -/
theorem perform_haltConsistent {c : DriverCall} (h : perform c s = .next t) (hs : HaltConsistent s) : HaltConsistent t := by
  obtain ⟨-, rfl⟩ | ⟨bytes, -, -, -, rfl⟩ | ⟨bytes, -, -, rfl⟩ | ⟨k, -, rfl⟩ | ⟨n, -, rfl⟩ := perform_cases h
  · exact haltConsistent_of_halt_eq_none rfl
  · exact haltConsistent_congr (s := s) rfl rfl (fun _ => rfl) hs
  · exact haltConsistent_congr (s := s) rfl rfl (fun _ => rfl) hs
  · exact haltConsistent_congr (s := s) rfl rfl id hs
  · exact beginStep_haltConsistent n hs

/-- Settles O22: a slot starts with no fault latched and ends the step call when it latches one; a driver call keeps the latch or
clears it. -/
theorem haltLatchStaysConsistent : Obligations.HaltLatchStaysConsistent := by
  intro s t hs h
  obtain ⟨n, u, -, hhalt, hone, rfl⟩ | ⟨-, hcall⟩ := step_cases h
  · obtain hkept | ⟨k, op, a, hk, ha, rfl⟩ := executeOne_halt hone
    · obtain ⟨dt, st, d, hend⟩ := endSlot_eq n u
      rw [hend]
      exact haltConsistent_of_halt_eq_none (hkept.trans hhalt)
    · exact haltConsistent_endSlot_raise hk ha n
  · obtain ⟨d, hd, hleft, -⟩ := nextCall_eq s
    rw [hd] at hcall
    exact perform_haltConsistent hcall (haltConsistent_congr (s := s) rfl rfl hleft.trans hs)

/-! ### Where PC is left -/

theorem raiseIn_halt_ne_none (k : FaultKind) (a : Option Nat) : (s.raiseIn i k a).halt ≠ none :=
  Option.some_ne_none _

theorem writeBytes_pc {a : Nat} {bs : List Byte} (h : s.writeBytes a bs = .ok t) : t.pc = s.pc := by
  obtain ⟨-, rfl⟩ := State.writeBytes_ok s h
  rfl

/-- An instruction that faults leaves PC at pc0 (R102, R246). -/
theorem exec_pc_of_fault (hhalt : s.halt = none) (h : exec i s = .next t) (hfault : t.halt ≠ none) : t.pc = s.pc := by
  obtain hkept | ⟨k, a, -, -, rfl⟩ := exec_halt h
  · exact absurd (hkept.trans hhalt) hfault
  · rfl

/-- A RET that does not fault leaves PC at the slot below SP (R122). -/
theorem execRet_pc (h : execRet s = .next t) (hok : t.halt = none) : t.pc = s.stack.toList.getD (s.sp.val - 1) 0 := by
  unfold execRet at h
  split at h <;> cases h
  · exact absurd hok (raiseIn_halt_ne_none _ _)
  · next w r hpop =>
    obtain ⟨hpos, rfl, rfl⟩ := State.pop_some s hpop
    have hlt : s.sp.val - 1 < 16 := by omega
    simp [List.getD_eq_getElem?_getD, hlt]

/-- A CALL that does not fault leaves PC at its target (R124). -/
theorem execCall_pc {nnn : Addr} (h : execCall nnn s = .next t) (hok : t.halt = none) : t.pc = zext16 nnn := by
  unfold execCall at h
  split at h <;> cases h
  · exact absurd hok (raiseIn_halt_ne_none _ _)
  · rfl

/-- Fx0A leaves PC at pc0 while no key is down (R224). -/
theorem execLdVxK_pc {x : Reg} (h : execLdVxK x s = .next t) :
    t.pc = if ∀ k, s.keyDown k = false then s.pc else s.pc + 2 := by
  unfold execLdVxK at h
  split at h <;> cases h
  · next hnone => rw [if_pos ((State.lowestKey_eq_none s).1 hnone)]
  · next k hkey =>
    have hdown : ¬ ∀ k, s.keyDown k = false := fun hall => by
      rw [(State.lowestKey_eq_none s).2 hall] at hkey
      cases hkey
    rw [if_neg hdown]
    rfl

theorem execRnd_pc {x : Reg} {kk : Byte} (h : execRnd x kk s = .next t) : t.pc = s.pc + 2 := by
  obtain ⟨b, r, hdraw⟩ := s.drawRand_eq
  rw [execRnd, hdraw] at h
  cases h
  rfl

/-- Settles O13: a fault leaves PC at pc0; without one, each handler's line of the table. -/
theorem pcIsLeftWhereTheTableSays : Obligations.PcIsLeftWhereTheTableSays := by
  intro i s t hhalt h
  by_cases hok : t.halt = none
  · rw [if_neg (not_not.2 hok)]
    cases i with
    | ret => exact execRet_pc h hok
    | call nnn => exact execCall_pc h hok
    | ldVxK x => exact execLdVxK_pc h
    | seImm | sneImm | seReg | sneReg | skp | sknp =>
      cases h
      rw [State.skipIf_eq]
      simp
    | rnd x kk => exact execRnd_pc h
    | drw | ldLoad =>
      simp only [exec, execDrw, execLdLoad] at h
      split at h <;> cases h
      · exact absurd hok (raiseIn_halt_ne_none _ _)
      · rfl
    | ldB | ldStore =>
      simp only [exec, execLdB, execLdStore] at h
      split at h <;> cases h
      · exact absurd hok (raiseIn_halt_ne_none _ _)
      · next hwrite => exact congrArg (· + 2) (writeBytes_pc hwrite)
    | _ => cases h; rfl
  · rw [if_pos hok]
    exact exec_pc_of_fault hhalt h hok

/-! ### A slot as a step of the machine -/

/-- A slot of the running step call is a step of the machine (R100). -/
theorem step_of_executeOne {n : Nat} (hleft : s.drv.left = n + 1) (hhalt : s.halt = none) (hone : executeOne s = .next u) :
    step s = .next (u.endSlot n) := by
  rw [step_of_left hleft hhalt, hone]
  rfl

/-- Settles O14: the step is the slot's end, which is one of three. -/
theorem slotEndsAsTheStepCallSays : Obligations.SlotEndsAsTheStepCallSays := by
  intro s u n hleft hhalt hone
  refine ⟨u.endSlot n, step_of_executeOne hleft hhalt hone, ?_⟩
  split
  · next r hr => exact endSlot_halted n hr
  · next hok =>
    split
    · next hn =>
      obtain ⟨hdt, hst⟩ := endStep_ticks u
      rw [hn, endSlot_zero hok]
      exact ⟨hdt, hst, rfl⟩
    · next hn => exact endSlot_of_ne_zero hn hok

/-! ### Opening a step call -/

/-- The driver's step call, when it is the next call (R100, R258). -/
theorem step_step {n : Nat} {rest : List DriverCall} (hleft : s.drv.left = 0) (hscript : s.drv.script = .step n :: rest) :
    step s = .next ((s.setDrv { s.drv with script := rest }).beginStep n) := by
  rw [step_of_idle hleft, driverTurn, nextCall_script hscript]
  rfl

/-- Settles O18: the call ends where it begins. -/
theorem haltedEngineRunsNothing : Obligations.HaltedEngineRunsNothing := by
  intro s n rest r hhalt hleft hscript
  have hhalt' : (s.setDrv { s.drv with script := rest }).halt = some r := hhalt
  rw [step_step hleft hscript, beginStep_halted n hhalt', State.returning, ← hleft]
  rfl

/-- Settles O17: the call ends where it begins, with one tick. -/
theorem stepZeroOnlyTicks : Obligations.StepZeroOnlyTicks := by
  intro s rest hleft hhalt hscript
  have hhalt' : (s.setDrv { s.drv with script := rest }).halt = none := hhalt
  obtain ⟨hdt, hst⟩ := endStep_ticks s
  refine ⟨_, step_step hleft hscript, ?_⟩
  rw [beginStep_zero hhalt', State.endStep, State.returning, ← hleft]
  exact ⟨hdt, hst, rfl⟩

/-! ### The fetch window -/

/-- Settles O8: the window is tested before anything is fetched. -/
theorem fetchOutsideTheWindowFaults : Obligations.FetchOutsideTheWindowFaults := by
  intro s hout
  rw [executeOne, s.not_inWindow_iff.2 hout]
  rfl

/-! ### The step call as a whole -/

/-- Every instruction answers a next state (R252). -/
theorem exec_next (i : Instr) (s : State) : ∃ t, exec i s = .next t := by
  cases i with
  | ret | call | drw | ldVxK | ldB | ldStore | ldLoad =>
    simp only [exec, execRet, execCall, execDrw, execLdVxK, execLdB, execLdStore, execLdLoad]
    split <;> exact ⟨_, rfl⟩
  | _ => exact ⟨_, rfl⟩

/-- `execute_one` answers a next state: a fault is taken, not a stop (R101, R240). -/
theorem executeOne_next (s : State) : ∃ t, executeOne s = .next t := by
  unfold executeOne
  split
  · split
    · exact exec_next _ s
    · exact ⟨_, rfl⟩
  · exact ⟨_, rfl⟩

theorem State.nextPc_setDrv (s : State) (d : DriverSide) : (s.setDrv d).nextPc = s.nextPc := rfl

/-- No instruction reads the driver's side: a change of it before the instruction is the same as one after it (R258). -/
theorem exec_setDrv (i : Instr) (s : State) (d : DriverSide) :
    exec i (s.setDrv d) = andThen (exec i s) fun t => .next (t.setDrv d) := by
  cases i with
  | ret =>
    change execRet (s.setDrv d) = andThen (execRet s) _
    rw [execRet, execRet, State.pop_setDrv]
    cases s.pop <;> rfl
  | call nnn =>
    change execCall nnn (s.setDrv d) = andThen (execCall nnn s) _
    rw [execCall, execCall, State.push_setDrv, State.nextPc_setDrv]
    cases s.push s.nextPc <;> rfl
  | rnd x kk =>
    change execRnd x kk (s.setDrv d) = andThen (execRnd x kk s) _
    rw [execRnd, execRnd, State.drawRand_setDrv]
    rfl
  | drw x y n =>
    change execDrw x y n (s.setDrv d) = andThen (execDrw x y n s) _
    rw [execDrw, execDrw, State.readBytes_setDrv, State.effAddr_setDrv]
    cases s.readBytes (s.effAddr 0) n.val <;> rfl
  | ldVxK x =>
    change execLdVxK x (s.setDrv d) = andThen (execLdVxK x s) _
    rw [execLdVxK, execLdVxK, State.lowestKey_setDrv]
    cases s.lowestKey <;> rfl
  | ldB x =>
    change execLdB x (s.setDrv d) = andThen (execLdB x s) _
    rw [execLdB, execLdB, State.writeBytes_setDrv, State.effAddr_setDrv, State.reg_setDrv]
    cases s.writeBytes (s.effAddr 0) (decimalDigits (s.reg x)) <;> rfl
  | ldStore x =>
    change execLdStore x (s.setDrv d) = andThen (execLdStore x s) _
    rw [execLdStore, execLdStore, State.writeBytes_setDrv, State.effAddr_setDrv, State.regsUpTo_setDrv]
    cases s.writeBytes (s.effAddr 0) (s.regsUpTo x) <;> rfl
  | ldLoad x =>
    change execLdLoad x (s.setDrv d) = andThen (execLdLoad x s) _
    rw [execLdLoad, execLdLoad, State.readBytes_setDrv, State.effAddr_setDrv]
    cases s.readBytes (s.effAddr 0) (x.val + 1) <;> rfl
  | _ => rfl

/-- `execute_one` does not read the driver's side (R101, R258). -/
theorem executeOne_setDrv (s : State) (d : DriverSide) :
    executeOne (s.setDrv d) = andThen (executeOne s) fun t => .next (t.setDrv d) := by
  unfold executeOne
  rw [State.inWindow_setDrv, State.wordAtPc_setDrv]
  split
  · cases decode s.wordAtPc with
    | ok i => exact exec_setDrv i s d
    | error e => rfl
  · rfl

/-- `execute_one` leaves the driver's side (R258). -/
theorem executeOne_drv (h : executeOne s = .next t) : t.drv = s.drv := by
  obtain ⟨-, i, -, hexec⟩ | ⟨-, -, rfl⟩ | ⟨-, rfl⟩ := executeOne_cases h
  · obtain ⟨-, -, hdrv⟩ := exec_outside hexec
    exact hdrv
  · rfl
  · rfl

/-- `execute_one` neither reads nor writes the count of the instructions left (R258). -/
theorem executeOne_setLeft (l : Nat) (h : executeOne s = .next t) :
    executeOne (s.setDrv { s.drv with left := l }) = .next (t.setDrv { t.drv with left := l }) := by
  rw [executeOne_setDrv, h, ← executeOne_drv h]
  rfl

/-- A fault ends the loop of R100 with no tick. -/
theorem runStep_succ_halted {r : FaultRecord} (n : Nat) (hone : executeOne s = .next u) (hhalt : u.halt = some r) :
    runStep (n + 1) s = .next (u.returning (.halted r)) := by
  simp only [runStep, hone, andThen, hhalt]

/-- With no fault the loop of R100 goes on. -/
theorem runStep_succ_running (n : Nat) (hone : executeOne s = .next u) (hhalt : u.halt = none) :
    runStep (n + 1) s = runStep n u := by
  simp only [runStep, hone, andThen, hhalt]

/-- With `n` instructions of a step call left, the machine runs the loop of R100 slot by slot, in at most `n` of its steps. -/
theorem run_endSlot (n : Nat) (hhalt : s.halt = none) :
    ∃ t k, runStep n s = .next t ∧ k ≤ n ∧ Host.Core.run core k (s.endSlot n) = .next t := by
  induction n generalizing s with
  | zero => exact ⟨s.endStep, 0, rfl, Nat.le_refl 0, by rw [endSlot_zero hhalt, run_zero]⟩
  | succ n ih =>
    obtain ⟨u, hone⟩ := executeOne_next s
    have hslot : step (s.endSlot (n + 1)) = .next (u.endSlot n) := by
      rw [endSlot_of_ne_zero (Nat.succ_ne_zero n) hhalt, ← endSlot_setLeft n (n + 1) u]
      exact step_of_executeOne rfl hhalt (executeOne_setLeft (n + 1) hone)
    cases hu : u.halt with
    | some r =>
      refine ⟨_, 1, runStep_succ_halted n hone hu, Nat.succ_le_succ (Nat.zero_le n), ?_⟩
      rw [run_succ 0 hslot, endSlot_halted n hu, run_zero]
    | none =>
      obtain ⟨t, k, hloop, hk, hrun⟩ := ih hu
      exact ⟨t, k + 1, (runStep_succ_running n hone hu).trans hloop, Nat.succ_le_succ hk, (run_succ k hslot).trans hrun⟩

/-- A step call of a halted engine is its beginning (R248). -/
theorem stepCall_halted {r : FaultRecord} (n : Nat) (hhalt : s.halt = some r) : stepCall n s = .next (s.beginStep n) := by
  simp only [stepCall, beginStep_halted n hhalt, hhalt]

/-- A step call of an engine that is not halted is the loop of R100. -/
theorem stepCall_running (n : Nat) (hhalt : s.halt = none) :
    stepCall n s = runStep n (s.setDrv { s.drv with fresh := false }) := by
  simp only [stepCall, hhalt]

/-- From the beginning of a step call the machine reaches the state the whole call answers (R100, R103). -/
theorem run_beginStep (n : Nat) (s : State) :
    ∃ t k, stepCall n s = .next t ∧ k ≤ n ∧ Host.Core.run core k (s.beginStep n) = .next t := by
  cases hhalt : s.halt with
  | some r => exact ⟨_, 0, stepCall_halted n hhalt, Nat.zero_le n, rfl⟩
  | none =>
    rw [stepCall_running n hhalt, beginStep_eq_endSlot]
    exact run_endSlot n hhalt

/-- Settles O15: the first step is the driver's call, and the machine runs the call it begins. -/
theorem machineRunsTheWholeStepCall : Obligations.MachineRunsTheWholeStepCall := by
  intro s n rest hleft hscript
  obtain ⟨t, k, hcall, hk, hrun⟩ := run_beginStep n (s.setDrv { s.drv with script := rest })
  exact ⟨t, k, hcall, hk, (run_succ k (step_step hleft hscript)).trans hrun⟩

/-! ### Waiting for a key -/

/-- An instruction that changes nothing is run again until the step call ends (R105). -/
theorem runStep_of_executeOne_self (n : Nat) (hone : executeOne s = .next s) (hhalt : s.halt = none) :
    runStep n s = .next s.endStep := by
  induction n with
  | zero => rfl
  | succ n ih => rw [runStep_succ_running n hone hhalt, ih]

/-- Fx0A with no key down changes nothing (R224). -/
theorem exec_ldVxK_of_no_key (x : Reg) (hkeys : ∀ k, s.keyDown k = false) : exec (.ldVxK x) s = .next s := by
  change execLdVxK x s = _
  rw [execLdVxK, (State.lowestKey_eq_none s).2 hkeys]

/-- Settles O16: `execute_one` changes nothing, and the driver's side is out of its reach, so the call only ticks. -/
theorem waitingForAKeyUsesUpTheStep : Obligations.WaitingForAKeyUsesUpTheStep := by
  intro x n s hhalt hmin hmax hdecode hkeys
  have hin : s.inWindow = true := s.inWindow_iff.2 ⟨hmin, hmax⟩
  have hone : executeOne s = .next s := (executeOne_of_decode hin hdecode).trans (exec_ldVxK_of_no_key x hkeys)
  have hopened : executeOne (s.setDrv { s.drv with fresh := false }) = .next (s.setDrv { s.drv with fresh := false }) := by
    rw [executeOne_setDrv, hone]
    rfl
  obtain ⟨hdt, hst⟩ := endStep_ticks s
  refine ⟨(s.setDrv { s.drv with fresh := false }).endStep, ?_, hdt, hst, rfl⟩
  rw [stepCall_running n hhalt, runStep_of_executeOne_self n hopened hhalt]

end Sys2Proof.Machine
end

section
/-! PROOFS of the family 41_control_flow.md: the encoding line of an instruction rule, where a skip and a jump end, and what CALL and
RET do to the stack (R120–R129). -/

namespace Sys2Proof.Machine

variable {s : State}

/-- The encoding line of every instruction rule is the instruction's row of the opcode map (R73). -/
theorem encoded_row (i : Instr) : Encoded i i.row.code i.row.mask :=
  (encodingRow i).left

/-! ### CALL and RET -/

/-- CALL with room on the stack, the whole next state (R124). -/
theorem exec_call_eq (nnn : Addr) (hlt : s.sp.val < 16) :
    exec (.call nnn) s = .next { s with
      pc := zext16 nnn, sp := ⟨s.sp.val + 1, Nat.succ_lt_succ hlt⟩, stack := s.stack.set s.sp.val (s.pc + 2) hlt } := by
  change execCall nnn s = _
  rw [execCall, State.push_of_lt s hlt]
  rfl

/-- CALL with all sixteen slots in use faults (R242). -/
theorem exec_call_full (nnn : Addr) (hfull : s.sp = 16) :
    exec (.call nnn) s = .next (s.raiseIn (.call nnn) .stackOverflow none) := by
  change execCall nnn s = _
  rw [execCall, State.push_full s s.nextPc hfull]

/-- RET with no slot in use faults (R243). -/
theorem exec_ret_empty (hempty : s.sp = 0) : exec .ret s = .next (s.raiseIn .ret .stackUnderflow none) := by
  change execRet s = _
  rw [execRet, State.pop_empty s hempty]

/-- Settles O40: with room the next state is known whole, and its slots are read off the one write; without room the push fails. -/
theorem callPushesTheReturnAddress : Obligations.CallPushesTheReturnAddress := by
  refine fun nnn s => ⟨encoded_row (.call nnn), fun hlt => ?room, fun hsp => ?full⟩
  case room =>
    refine ⟨_, exec_call_eq nnn hlt, zext16_toNat nnn, rfl, fun j => ?_, rfl⟩
    rw [Vector.getElem_set]
    simp only [eq_comm (a := s.sp.val)]
  case full => exact exec_call_full nnn (Fin.ext hsp)

/-- Settles O41: SP > 0 is SP = j + 1 for the slot j that O60 pops; with SP = 0 the pop fails. -/
theorem retPopsTheReturnAddress : Obligations.RetPopsTheReturnAddress := by
  refine fun s => ⟨encoded_row .ret, fun hpos => ?pops, fun hsp => exec_ret_empty (Fin.ext hsp)⟩
  case pops =>
    obtain ⟨j, hj⟩ : ∃ j : Fin 16, s.sp.val = j.val + 1 := ⟨⟨s.sp.val - 1, by omega⟩, (Nat.sub_add_cancel hpos).symm⟩
    have hslot : s.sp.val - 1 = j.val := by omega
    refine ⟨_, retCompletesOnEveryNonEmptyStack j s hj, hslot.symm, fun k hk => ?_, rfl⟩
    rw [Fin.ext (hk.trans hslot)]

/-! ### Skips (R120) -/

theorem State.skipIf_beq (a b : Byte) : s.skipIf (a == b) = { s with pc := if a = b then s.pc + 4 else s.pc + 2 } := by
  rw [State.skipIf_eq]
  simp only [beq_iff_eq]
  rfl

theorem State.skipIf_bne (a b : Byte) : s.skipIf (a != b) = { s with pc := if a = b then s.pc + 2 else s.pc + 4 } := by
  rw [State.skipIf_eq]
  simp only [bne_iff_ne, ite_not]
  rfl

/-- Settles O37: SE skips on equality and SNE on its negation. -/
theorem immediateSkips : Obligations.ImmediateSkips := fun x kk s =>
  ⟨encoded_row (.seImm x kk), encoded_row (.sneImm x kk), congrArg Host.Outcome.next (State.skipIf_beq (s.reg x) kk),
    congrArg Host.Outcome.next (State.skipIf_bne (s.reg x) kk)⟩

/-- Settles O38, as O37 with the second register in place of the immediate. -/
theorem registerSkips : Obligations.RegisterSkips := fun x y s =>
  ⟨encoded_row (.seReg x y), encoded_row (.sneReg x y), congrArg Host.Outcome.next (State.skipIf_beq (s.reg x) (s.reg y)),
    congrArg Host.Outcome.next (State.skipIf_bne (s.reg x) (s.reg y))⟩

/-! ### Jumps -/

/-- The jump's sum is exact: at most 0xFFF + 0xFF, it does not wrap (R129). -/
theorem jump_toNat (nnn : Addr) (b : Byte) : (zext16 nnn + b.setWidth 16).toNat = nnn.toNat + b.toNat := by
  have ha := nnn.isLt
  have hb := b.isLt
  rw [BitVec.toNat_add, zext16_toNat, BitVec.toNat_setWidth]
  omega

/-- Settles O39: both jumps write PC alone, with a sum that does not wrap. -/
theorem jumpTargets : Obligations.JumpTargets := fun nnn s =>
  ⟨encoded_row (.jp nnn), encoded_row (.jpV0 nnn), ⟨s.setPc (zext16 nnn), rfl, zext16_toNat nnn, rfl⟩,
    ⟨s.setPc (zext16 nnn + (s.reg 0).setWidth 16), rfl, jump_toNat nnn (s.reg 0), rfl⟩⟩

end Sys2Proof.Machine
end

section
/-! PROOFS of the family 42_alu.md: what the arithmetic of R140 gives as integers, what a handler that writes V registers alone leaves
unchanged, with and without a flag (R141), and the random draw (R142–R153). -/

namespace Sys2Proof.Machine

variable {s : State} {i : Instr}

/-! ### The arithmetic as integers (R140) -/

theorem sumByte_toNat (a b : Byte) : (sumByte a b).toNat = (a.toNat + b.toNat) % 256 :=
  BitVec.toNat_ofNat _ 8

theorem diffByte_toNat (a b : Byte) : ((diffByte a b).toNat : Int) = (a.toNat - b.toNat : Int) % 256 := by
  rw [diffByte, BitVec.toNat_ofInt]
  exact Int.toNat_of_nonneg (Int.emod_nonneg _ (by decide))

theorem shrByte_toNat (b : Byte) : (shrByte b).toNat = b.toNat / 2 := by
  rw [shrByte, BitVec.toNat_ushiftRight, Nat.shiftRight_one]

theorem shlByte_toNat (b : Byte) : (shlByte b).toNat = 2 * b.toNat % 256 := by
  rw [shlByte, BitVec.toNat_shiftLeft, Nat.shiftLeft_eq, Nat.mul_comm]

theorem boolByte_toNat (c : Bool) : (boolByte c).toNat = c.toNat := by
  cases c <;> rfl

/-- A flag that decides a comparison, as the byte it is written as. -/
theorem boolByte_decide (p : Prop) [Decidable p] : boolByte (decide p) = if p then 1 else 0 := by
  simp only [boolByte, decide_eq_true_eq]

/-- A bit of a byte, as the number a shift writes to VF. -/
theorem boolByte_getLsbD_toNat (b : Byte) (k : Nat) : (boolByte (b.getLsbD k)).toNat = b.toNat / 2 ^ k % 2 := by
  rw [boolByte_toNat, ← BitVec.testBit_toNat, Nat.toNat_testBit]

theorem shrOut_toNat (b : Byte) : (boolByte (shrOut b)).toNat = b.toNat % 2 := by
  rw [shrOut, boolByte_getLsbD_toNat, pow_zero, Nat.div_one]

theorem shlOut_toNat (b : Byte) : (boolByte (shlOut b)).toNat = b.toNat / 128 := by
  have hb := b.isLt
  rw [shlOut, boolByte_getLsbD_toNat]
  omega

/-! ### A result without a flag -/

/-- Writing V registers and advancing changes nothing besides them and PC. -/
theorem onlyRegsChange_setV {written : List Reg} {v : Vector Byte 16} (hv : RegsAgreeBut written s (s.setV v)) :
    OnlyRegsChange written s (s.setV v).advance :=
  ⟨hv, rfl, fun _ => rfl, ⟨rfl, rfl⟩, ⟨rfl, rfl⟩, rfl, ⟨rfl, rfl, rfl, rfl⟩, rfl⟩

theorem reg_setReg_advance_self (x : Reg) (b : Byte) : (s.setReg x b).advance.reg x = b := by
  rw [State.reg_advance, State.reg_setReg, if_pos rfl]

theorem onlyRegsChange_setReg (x : Reg) (b : Byte) : OnlyRegsChange [x] s (s.setReg x b).advance :=
  onlyRegsChange_setV (v := (s.setReg x b).v) fun r hr =>
    (State.reg_setReg s x r b).trans (if_neg (List.ne_of_not_mem_cons hr))

/-- Settles O43: each handler writes Vx alone, and the bitwise operations act bit by bit. -/
theorem loadsAndLogic : Obligations.LoadsAndLogic := by
  intro x y kk s
  refine ⟨encoded_row (.ldImm x kk), encoded_row (.ldReg x y), encoded_row (.orReg x y), encoded_row (.andReg x y),
    encoded_row (.xorReg x y), ?ldImm, ?ldReg, ?or, ?and, ?xor⟩
  case ldImm => exact ⟨_, rfl, reg_setReg_advance_self x kk, rfl, onlyRegsChange_setReg x kk⟩
  case ldReg => exact ⟨_, rfl, reg_setReg_advance_self x (s.reg y), rfl, onlyRegsChange_setReg x (s.reg y)⟩
  case or =>
    refine ⟨_, rfl, fun b => ?_, rfl, onlyRegsChange_setReg x (s.reg x ||| s.reg y)⟩
    rw [reg_setReg_advance_self, BitVec.getLsbD_or]
  case and =>
    refine ⟨_, rfl, fun b => ?_, rfl, onlyRegsChange_setReg x (s.reg x &&& s.reg y)⟩
    rw [reg_setReg_advance_self, BitVec.getLsbD_and]
  case xor =>
    refine ⟨_, rfl, fun b => ?_, rfl, onlyRegsChange_setReg x (s.reg x ^^^ s.reg y)⟩
    rw [reg_setReg_advance_self, BitVec.getLsbD_xor]

/-- Settles O44: the handler writes the sum mod 256 to Vx alone. -/
theorem addImmediateWrapsWithoutFlag : Obligations.AddImmediateWrapsWithoutFlag := by
  refine fun x kk s => ⟨encoded_row (.addImm x kk), _, rfl, ?_, rfl, onlyRegsChange_setReg x (sumByte (s.reg x) kk)⟩
  rw [reg_setReg_advance_self, sumByte_toNat]

/-! ### A result and then a flag (R141) -/

/-- A handler that ends with a result and a flag: the flag is VF's final value, the result that of any other Vx. -/
theorem exec_resultFlag {x : Reg} {r : Byte} {f : Bool} (h : exec i s = .next (s.setResultFlag x r f).advance)
    (hw : writtenRegs i = [x, 15]) :
    ∃ t, exec i s = .next t ∧ (x ≠ 15 → t.reg x = r) ∧ t.reg 15 = boolByte f ∧ t.pc = s.pc + 2 ∧
      OnlyRegsChange [x, 15] s t := by
  refine ⟨_, h, fun hx => ?result, ?flag, rfl, ?frame⟩
  case result => rw [State.reg_advance, State.reg_setResultFlag, if_neg hx, if_pos rfl]
  case flag => rw [State.reg_advance, State.reg_setResultFlag, if_pos rfl]
  case frame =>
    have hregs := exec_regsAgreeBut h
    rw [hw] at hregs
    exact onlyRegsChange_setV (v := (s.setResultFlag x r f).v) hregs

/-- Settles O45: the sum and then the carry. -/
theorem addSetsCarryLast : Obligations.AddSetsCarryLast := by
  intro x y s
  obtain ⟨t, hexec, hres, hflag, hpc, hframe⟩ := exec_resultFlag (i := .addReg x y) (s := s) rfl rfl
  refine ⟨encoded_row (.addReg x y), t, hexec, fun hx => ?_, hflag.trans (boolByte_decide _), hpc, hframe⟩
  rw [hres hx, sumByte_toNat]

/-- A handler that ends with the difference of two bytes and its not-borrow, whichever register the minuend came from. -/
theorem exec_difference {x : Reg} {a b : Byte}
    (h : exec i s = .next (s.setResultFlag x (diffByte a b) (notBorrow a b)).advance) (hw : writtenRegs i = [x, 15]) :
    ∃ t, exec i s = .next t ∧ (x ≠ 15 → ((t.reg x).toNat : Int) = (a.toNat - b.toNat : Int) % 256) ∧
      t.reg 15 = (if b.toNat ≤ a.toNat then 1 else 0) ∧ t.pc = s.pc + 2 ∧ OnlyRegsChange [x, 15] s t := by
  obtain ⟨t, hexec, hres, hflag, hpc, hframe⟩ := exec_resultFlag h hw
  refine ⟨t, hexec, fun hx => ?_, hflag.trans (boolByte_decide _), hpc, hframe⟩
  rw [hres hx, diffByte_toNat]

/-- Settles O46: SUB takes Vx as the minuend, SUBN takes Vy. -/
theorem subtractSetsNotBorrowLast : Obligations.SubtractSetsNotBorrowLast := fun x y s =>
  ⟨encoded_row (.sub x y), encoded_row (.subn x y), exec_difference (i := .sub x y) (s := s) rfl rfl,
    exec_difference (i := .subn x y) (s := s) rfl rfl⟩

/-- Settles O47: each shift writes the shifted Vy and then the bit shifted out. -/
theorem shiftsCopyVyThenShift : Obligations.ShiftsCopyVyThenShift := by
  refine fun x y s => ⟨encoded_row (.shr x y), encoded_row (.shl x y), ?shr, ?shl⟩
  case shr =>
    obtain ⟨t, hexec, hres, hflag, hpc, hframe⟩ := exec_resultFlag (i := .shr x y) (s := s) rfl rfl
    refine ⟨t, hexec, fun hx => ?_, ?_, hpc, hframe⟩
    · rw [hres hx, shrByte_toNat]
    · rw [hflag, shrOut_toNat]
  case shl =>
    obtain ⟨t, hexec, hres, hflag, hpc, hframe⟩ := exec_resultFlag (i := .shl x y) (s := s) rfl rfl
    refine ⟨t, hexec, fun hx => ?_, ?_, hpc, hframe⟩
    · rw [hres hx, shlByte_toNat]
    · rw [hflag, shlOut_toNat]

/-! ### The random draw (R153) -/

/-- A draw is taken: the RAND input it leaves, in which a listed draw is gone or the counter advanced, is another one. -/
theorem State.drawRand_taken (s : State) : ∃ b r, s.drawRand = (b, s.setRand r) ∧ r ≠ s.rand := by
  cases hp : s.rand.pending with
  | nil =>
    refine ⟨Config.randByte s.rand.draws, { s.rand with draws := s.rand.draws + 1 }, ?_, fun h => ?_⟩
    · simp [State.drawRand, hp]
    · exact Nat.succ_ne_self s.rand.draws (congrArg RandInput.draws h)
  | cons b rest =>
    refine ⟨b, { s.rand with pending := rest }, State.drawRand_pending s hp, fun h => ?_⟩
    exact List.cons_ne_self b rest (hp.symm.trans (congrArg RandInput.pending h).symm)

theorem exec_rnd_eq {b : Byte} {r : RandInput} (x : Reg) (kk : Byte) (hdraw : s.drawRand = (b, s.setRand r)) :
    exec (.rnd x kk) s = .next ((s.setRand r).setReg x (b &&& kk)).advance := by
  change execRnd x kk s = _
  rw [execRnd, hdraw]

/-- Settles O48: the masked draw goes to Vx alone, and a draw put at the head of the list is the one taken. -/
theorem randomByteIsMaskedAndUnconstrained : Obligations.RandomByteIsMaskedAndUnconstrained := by
  refine fun x kk s => ⟨encoded_row (.rnd x kk), ?masked, fun draw => ?linedUp⟩
  case masked =>
    obtain ⟨draw, r, hdraw, hr⟩ := s.drawRand_taken
    refine ⟨_, draw, exec_rnd_eq x kk hdraw, reg_setReg_advance_self x _, fun b hb => ?_, rfl,
      onlyRegsChange_setReg x (draw &&& kk), hr⟩
    rw [reg_setReg_advance_self, BitVec.getLsbD_and, Bool.and_eq_true] at hb
    exact hb.right
  case linedUp => exact ⟨_, exec_rnd_eq x kk (State.drawRand_pending _ rfl), reg_setReg_advance_self x _, rfl⟩

end Sys2Proof.Machine
end

section
/-! PROOFS of the family 43_index_memory.md: the three loads of I, when a checked access passes or faults, and the two stores and the load
that make one (R181–R186). -/

namespace Sys2Proof.Machine

variable {s : State}

/-! ### The values I is loaded with (R181–R183) -/

/-- A key code is the low nibble (R220). -/
theorem keyCode_val (b : Byte) : (keyCode b).val = b.toNat % 16 := by
  change (b.extractLsb' 0 4).toNat = _
  rw [BitVec.extractLsb'_toNat, Nat.shiftRight_zero]

/-- The glyph's address is exact: at most 0x050 + 5 * 15, it does not wrap (R183). -/
theorem glyphAddr_toNat (b : Byte) : (glyphAddr b).toNat = 0x050 + 5 * (b.toNat % 16) := by
  have hbase : glyphBase = 0x050 := rfl
  rw [glyphAddr, BitVec.toNat_ofNat, keyCode_val, hbase]
  omega

/-- A byte added to a word, mod 65536 (R182). -/
theorem add_byte_toNat (w : Word) (b : Byte) : (w + b.setWidth 16).toNat = (w.toNat + b.toNat) % 65536 := by
  rw [BitVec.toNat_add, BitVec.toNat_setWidth_of_le (by decide)]

/-- Settles O49: each handler writes I and advances, and the three values are known as integers. -/
theorem indexRegisterLoads : Obligations.IndexRegisterLoads := fun nnn x s =>
  ⟨encoded_row (.ldI nnn), encoded_row (.addI x), encoded_row (.ldF x), ⟨_, rfl, zext16_toNat nnn, rfl⟩,
    ⟨_, rfl, add_byte_toNat s.i (s.reg x), rfl⟩, ⟨_, rfl, glyphAddr_toNat (s.reg x), rfl⟩⟩

/-! ### When a checked access passes or faults (R51, R57) -/

/-- A range that may be written may be read (R51). -/
theorem Writable.readable {base len : Nat} (h : Writable s base len) : Readable base len :=
  fun a hlo hhi => Nat.le_of_not_lt fun hout => h a hlo hhi (.inl hout)

theorem readBytes_of_readable {base len : Nat} (h : Readable base len) :
    s.readBytes base len = .ok (s.bytesAt base len) := by
  refine State.readBytes_of_le s ?_
  cases len with
  | zero => exact .inl rfl
  | succ len => exact .inr (Nat.succ_le_succ (h (base + len) (by omega) (by omega)))

theorem writeBytes_of_writable {base : Nat} {bs : List Byte} (h : Writable s base bs.length) :
    s.writeBytes base bs = .ok (s.setMem (Memory.setBytes s.cfg.glyphs s.mem base bs)) :=
  State.writeBytes_of_allowed s (writable_iff.1 h)

/-- CheckRead answers the lowest address outside memory, since it answers some such lowest address and there is one only. -/
theorem checkRead_of_firstReadFault {base len bad : Nat} (h : FirstReadFault base len bad) : checkRead base len = some bad := by
  have hm : memSize = 0x1000 := rfl
  obtain ⟨hlo, hhi, hbad, hlowest⟩ := h
  cases hcheck : checkRead base len with
  | none =>
    have hfits := checkRead_eq_none.1 hcheck
    omega
  | some c =>
    obtain ⟨hclo, -, hc, hclowest⟩ := checkRead_eq_some hcheck
    have hle : bad ≤ c := Nat.le_of_not_lt fun hlt => absurd (hlowest c hclo hlt) (by omega)
    have hge : c ≤ bad := Nat.le_of_not_lt fun hlt => absurd (hclowest bad hlo hlt) (by omega)
    rw [Nat.le_antisymm hge hle]

/-- CheckWrite answers the lowest address that may not be written, for the same reason. -/
theorem checkWrite_of_firstWriteFault {base len bad : Nat} (h : FirstWriteFault s base len bad) :
    checkWrite s.cfg.glyphWrites base len = some bad := by
  obtain ⟨hlo, hhi, hbad, hlowest⟩ := h
  cases hcheck : checkWrite s.cfg.glyphWrites base len with
  | none => exact absurd hbad (writable_iff.2 (checkWrite_eq_none.1 hcheck) bad hlo hhi)
  | some c =>
    obtain ⟨hclo, -, hc, hclowest⟩ := checkWrite_eq_some hcheck
    have hle : bad ≤ c := Nat.le_of_not_lt fun hlt => hlowest c hclo hlt (writeRefused_iff.1 hc)
    have hge : c ≤ bad := Nat.le_of_not_lt fun hlt => Bool.false_ne_true ((hclowest bad hlo hlt).symm.trans (writeRefused_iff.2 hbad))
    rw [Nat.le_antisymm hge hle]

theorem readBytes_of_firstReadFault {base len bad : Nat} (h : FirstReadFault base len bad) :
    s.readBytes base len = .error bad := by
  rw [State.readBytes, checkRead_of_firstReadFault h]

theorem writeBytes_of_firstWriteFault {base bad : Nat} {bs : List Byte} (h : FirstWriteFault s base bs.length bad) :
    s.writeBytes base bs = .error bad := by
  rw [State.writeBytes, checkWrite_of_firstWriteFault h]

/-! ### The two stores (R184, R185) -/

/-- The state after a block of bytes is stored at I and PC advanced. -/
def State.storedAtI (s : State) (bs : List Byte) : State :=
  (s.setMem (Memory.setBytes s.cfg.glyphs s.mem s.i.toNat bs)).advance

/-- Byte j of the block stored reads back at I + j. -/
theorem byteAt_storedAtI {bs : List Byte} {j : Nat} (hj : j < bs.length) :
    (s.storedAtI bs).byteAt (s.i.toNat + j) = bs.getD j 0 := by
  rw [State.storedAtI, State.byteAt_advance, State.byteAt_setBytes, if_pos (by omega), Nat.add_sub_cancel_left]

theorem exec_ldB_writable (x : Reg) (h : Writable s s.i.toNat 3) :
    exec (.ldB x) s = .next (s.storedAtI (decimalDigits (s.reg x))) := by
  change execLdB x s = _
  rw [execLdB, State.effAddr, Nat.add_zero, writeBytes_of_writable h]
  rfl

theorem exec_ldB_fault (x : Reg) {bad : Nat} (h : FirstWriteFault s s.i.toNat 3 bad) :
    exec (.ldB x) s = .next (s.raiseIn (.ldB x) .addressFault (some bad)) := by
  change execLdB x s = _
  rw [execLdB, State.effAddr, Nat.add_zero, writeBytes_of_firstWriteFault h]

theorem exec_ldStore_writable (x : Reg) (h : Writable s s.i.toNat (x.val + 1)) :
    exec (.ldStore x) s = .next (s.storedAtI (s.regsUpTo x)) := by
  rw [← s.regsUpTo_length x] at h
  change execLdStore x s = _
  rw [execLdStore, State.effAddr, Nat.add_zero, writeBytes_of_writable h]
  rfl

theorem exec_ldStore_fault (x : Reg) {bad : Nat} (h : FirstWriteFault s s.i.toNat (x.val + 1) bad) :
    exec (.ldStore x) s = .next (s.raiseIn (.ldStore x) .addressFault (some bad)) := by
  rw [← s.regsUpTo_length x] at h
  change execLdStore x s = _
  rw [execLdStore, State.effAddr, Nat.add_zero, writeBytes_of_firstWriteFault h]

/-- The three bytes of a decimal expansion as integers; none of them is reduced mod 256. -/
theorem decimalDigits_toNat (b : Byte) :
    ((decimalDigits b).getD 0 0).toNat = b.toNat / 100 ∧ ((decimalDigits b).getD 1 0).toNat = b.toNat / 10 % 10 ∧
      ((decimalDigits b).getD 2 0).toNat = b.toNat % 10 := by
  have hb := b.isLt
  refine ⟨?_, ?_, ?_⟩ <;> exact (BitVec.toNat_ofNat _ 8).trans (Nat.mod_eq_of_lt (by omega))

/-- Settles O50: the three bytes at I are the quotients and remainders of R184, whose weighted sum is Vx. -/
theorem bcdStoresTheDecimalDigits : Obligations.BcdStoresTheDecimalDigits := by
  refine fun x s => ⟨encoded_row (.ldB x), fun hwritable => ?stores, fun bad hbad => exec_ldB_fault x hbad⟩
  case stores =>
    have hexec := exec_ldB_writable x hwritable
    obtain ⟨hhundreds, htens, hones⟩ := decimalDigits_toNat (s.reg x)
    have hbyte (j : Nat) (hj : j < 3) :
        (s.storedAtI (decimalDigits (s.reg x))).byteAt (s.i.toNat + j) = (decimalDigits (s.reg x)).getD j 0 := byteAt_storedAtI hj
    rw [← hbyte 0 (by decide), Nat.add_zero] at hhundreds
    rw [← hbyte 1 (by decide)] at htens
    rw [← hbyte 2 (by decide)] at hones
    refine ⟨_, hexec, ?_, ?_, ?_, exec_memoryAgreesOutside hexec, rfl⟩ <;> omega

/-- Settles O51: byte r of the block stored is Vr. -/
theorem storeWritesTheRegisters : Obligations.StoreWritesTheRegisters := by
  refine fun x s => ⟨encoded_row (.ldStore x), fun hwritable => ?stores, fun bad hbad => exec_ldStore_fault x hbad⟩
  case stores =>
    have hexec := exec_ldStore_writable x hwritable
    refine ⟨_, hexec, fun r hr => ?_, exec_memoryAgreesOutside hexec, rfl⟩
    have hlt : r.val < (s.regsUpTo x).length := by rw [s.regsUpTo_length x]; exact Nat.lt_succ_of_le hr
    rw [byteAt_storedAtI hlt, State.regsUpTo_getD s x r hr]

/-! ### The load, and the round trip (R186) -/

theorem exec_ldLoad_readable (x : Reg) (h : Readable s.i.toNat (x.val + 1)) :
    exec (.ldLoad x) s = .next (s.setV (loadRegs 0 (s.bytesAt s.i.toNat (x.val + 1)) s.v)).advance := by
  change execLdLoad x s = _
  rw [execLdLoad, State.effAddr, Nat.add_zero, readBytes_of_readable h]

theorem exec_ldLoad_fault (x : Reg) {bad : Nat} (h : FirstReadFault s.i.toNat (x.val + 1) bad) :
    exec (.ldLoad x) s = .next (s.raiseIn (.ldLoad x) .addressFault (some bad)) := by
  change execLdLoad x s = _
  rw [execLdLoad, State.effAddr, Nat.add_zero, readBytes_of_firstReadFault h]

/-- What a load of `len` bytes from `a` leaves in V[r]: byte r of the block, or what was there (R186). -/
theorem loadRegs_bytesAt_getElem (a len : Nat) (r : Reg) :
    (loadRegs 0 (s.bytesAt a len) s.v)[r.val] = if r.val < len then s.byteAt (a + r.val) else s.reg r := by
  rw [loadRegs_getElem _ _ _ _ r.isLt, State.bytesAt_length]
  by_cases hr : r.val < len
  · rw [if_pos (by omega), if_pos hr, Nat.sub_zero, State.bytesAt_getD s a len r.val hr]
  · rw [if_neg (by omega), if_neg hr, State.reg_def]

/-- Settles O52: V[r] is loaded exactly when r is at most x. -/
theorem loadReadsTheRegisters : Obligations.LoadReadsTheRegisters := by
  refine fun x s => ⟨encoded_row (.ldLoad x), fun hreadable => ?loads, fun bad hbad => exec_ldLoad_fault x hbad⟩
  case loads =>
    refine ⟨_, exec_ldLoad_readable x hreadable, fun r hr => ?upToVx, fun r hr => ?aboveVx, rfl⟩
    case upToVx => exact (loadRegs_bytesAt_getElem _ _ r).trans (if_pos (Nat.lt_succ_of_le hr))
    case aboveVx => exact (loadRegs_bytesAt_getElem _ _ r).trans (if_neg (Nat.not_lt_of_le hr))

/-- Settles O53: by O51 byte I + r holds the old Vr, by O52 the load puts that byte into V[r], and neither changes I. -/
theorem storeThenLoadRestoresTheRegisters : Obligations.StoreThenLoadRestoresTheRegisters := by
  intro x s v pc hwritable
  obtain ⟨-, hstore, -⟩ := storeWritesTheRegisters x s
  obtain ⟨t, hexecStore, hbytes, -, hframeStore⟩ := hstore hwritable
  have hi : t.i = s.i := by rw [hframeStore]
  obtain ⟨-, hload, -⟩ := loadReadsTheRegisters x { t with v := v, pc := pc }
  obtain ⟨u, hexecLoad, hloaded, hkept, hframeLoad⟩ := hload (hi ▸ hwritable.readable)
  refine ⟨t, u, hexecStore, hexecLoad, fun r hr => ?_, hkept, by rw [hframeLoad, ← hi]⟩
  calc u.reg r = t.byteAt (t.i.toNat + r.val) := hloaded r hr
    _ = s.reg r := by rw [hi, hbytes r hr]

end Sys2Proof.Machine
end

section
/-! PROOFS of the family 44_display.md: CLS, the sprite bits DRW toggles, its collision, and two draws that undo each other
(R200, R201). -/

namespace Sys2Proof.Machine

variable {s : State}

/-- Every pixel of a framebuffer made of one value has that value (R30). -/
theorem pixel_replicate (b : Bool) (x y : Nat) : pixel (Vector.replicate 32 (Vector.replicate 64 b)) x y = b := by
  rw [pixel, Vector.getElem_replicate, Vector.getElem_replicate]

/-- Settles O54: the handler replaces the whole framebuffer by one that is off everywhere. -/
theorem clsTurnsEveryPixelOff : Obligations.ClsTurnsEveryPixelOff :=
  fun _ => ⟨encoded_row .cls, _, rfl, pixel_replicate false, rfl⟩

/-! ### What DRW draws, read as sprite bits (R201) -/

/-- The drawing of `DRW Vx, Vy, n`: its framebuffer and whether it collides. -/
def State.drawing (s : State) (x y : Reg) (n : Nat) : Drawing :=
  drawRows (originX (s.reg x)) (originY (s.reg y)) (s.bytesAt s.i.toNat n) (s.fb, false)

theorem exec_drw_readable (x y : Reg) (n : Fin 16) (h : Readable s.i.toNat n.val) :
    exec (.drw x y n) s =
      .next ((s.setFb (s.drawing x y n.val).1).setReg vf (boolByte (s.drawing x y n.val).2)).advance := by
  change execDrw x y n s = _
  rw [execDrw, State.effAddr, Nat.add_zero, readBytes_of_readable h]
  rfl

theorem exec_drw_fault (x y : Reg) (n : Fin 16) {bad : Nat} (h : FirstReadFault s.i.toNat n.val bad) :
    exec (.drw x y n) s = .next (s.raiseIn (.drw x y n) .addressFault (some bad)) := by
  change execDrw x y n s = _
  rw [execDrw, State.effAddr, Nat.add_zero, readBytes_of_firstReadFault h]

/-- A byte of the block read from memory is there exactly inside the block. -/
theorem decide_and_bytesAt_getD (a len row k : Nat) (c : Bool) :
    (decide (row < len) && c && ((s.bytesAt a len).getD row 0).getLsbD k) =
      (decide (row < len) && c && (s.byteAt (a + row)).getLsbD k) := by
  by_cases hrow : row < len
  · rw [State.bytesAt_getD s a len row hrow]
  · rw [decide_eq_false hrow, Bool.false_and, Bool.false_and, Bool.false_and]

/-- The drawing toggles a pixel exactly when the sprite has a set bit there. -/
theorem pixel_drawing (x y : Reg) {n : Nat} (hn : n ≤ 32) (px py : Nat) :
    pixel (s.drawing x y n).1 px py = (pixel s.fb px py ^^ spriteBit s x y n px py) := by
  have hlen := s.bytesAt_length s.i.toNat n
  rw [State.drawing, drawRows_pixel _ _ _ _ (hlen.trans_le hn), hlen, decide_and_bytesAt_getD, originX, originY,
    Nat.mod_mod, Nat.mod_mod]
  rfl

/-- The sprite bit at row `r`, column `c` of the sprite lands at the origin plus (c, r), each axis wrapping. -/
theorem spriteBit_origin_add (x y : Reg) {n r c : Nat} (hr : r < 32) (hc : c < 8) :
    spriteBit s x y n ((originX (s.reg x) + c) % 64) ((originY (s.reg y) + r) % 32) =
      (decide (r < n) && (s.byteAt (s.i.toNat + r)).getLsbD (7 - c)) := by
  have hrow : ((originY (s.reg y) + r) % 32 + 32 - (s.reg y).toNat % 32) % 32 = r := by rw [originY]; omega
  have hcol : ((originX (s.reg x) + c) % 64 + 64 - (s.reg x).toNat % 64) % 64 = c := by rw [originX]; omega
  simp only [spriteBit, hrow, hcol, hc, decide_true, Bool.and_true]

/-- The drawing collides exactly when the sprite has a set bit at a lit pixel. -/
theorem drawing_collision (x y : Reg) {n : Nat} (hn : n ≤ 32) :
    (s.drawing x y n).2 = true ↔
      ∃ px py, px < 64 ∧ py < 32 ∧ pixel s.fb px py = true ∧ spriteBit s x y n px py = true := by
  have hlen := s.bytesAt_length s.i.toNat n
  rw [State.drawing, drawRows_collision _ _ _ _ (hlen.trans_le hn), hlen]
  constructor
  · rintro (hfalse | ⟨r, c, hr, hc, hbit, hlit⟩)
    · cases hfalse
    · refine ⟨(originX (s.reg x) + c) % 64, (originY (s.reg y) + r) % 32, Nat.mod_lt _ (by decide), Nat.mod_lt _ (by decide), ?_, ?_⟩
      · rwa [pixel_wrap s.fb (Nat.mod_mod ..) (Nat.mod_mod ..)]
      · rw [State.bytesAt_getD s _ _ r hr] at hbit
        rw [spriteBit_origin_add x y (by omega) hc, decide_eq_true hr, hbit, Bool.and_true]
  · rintro ⟨px, py, hpx, hpy, hlit, hbit⟩
    simp only [spriteBit, Bool.and_eq_true, decide_eq_true_eq] at hbit
    obtain ⟨⟨hrow, hcol⟩, hset⟩ := hbit
    refine .inr ⟨_, _, hrow, hcol, by rwa [State.bytesAt_getD s _ _ _ hrow], ?_⟩
    rwa [pixel_wrap s.fb (x' := px) (y' := py) (by rw [originX]; omega) (by rw [originY]; omega)]

/-- Settles O55: the next state is known whole, its framebuffer pixel by pixel and its VF as the drawing's collision. -/
theorem drawXorsTheSprite : Obligations.DrawXorsTheSprite := by
  refine fun x y n s => ⟨encoded_row (.drw x y n), fun hreadable => ?draws, fun bad hbad => exec_drw_fault x y n hbad⟩
  case draws =>
    have hn : n.val ≤ 32 := by omega
    have hcollision := drawing_collision (s := s) x y hn
    refine ⟨_, exec_drw_readable x y n hreadable, fun px py _ _ => pixel_drawing x y hn px py, fun hmeets => ?collides,
      fun hclear => ?clear, fun r hr => ?others, rfl⟩
    all_goals rw [State.reg_advance, State.reg_setReg]
    case collides => rw [if_pos rfl, hcollision.2 hmeets]; rfl
    case clear => rw [if_pos rfl, Bool.eq_false_iff.2 (mt hcollision.1 hclear)]; rfl
    case others => exact if_neg hr

/-! ### Drawing twice (R201) -/

/-- A framebuffer is its pixels (R30). -/
theorem eq_of_pixel_eq {f g : Vector (Vector Bool 64) 32}
    (h : ∀ px py, px < 64 → py < 32 → pixel f px py = pixel g px py) : f = g := by
  refine Vector.ext fun py hpy => Vector.ext fun px hpx => ?_
  have hpixel := h px py hpx hpy
  simpa only [pixel, Nat.mod_eq_of_lt hpx, Nat.mod_eq_of_lt hpy] using hpixel

/-- The sprite depends on its coordinates, I and memory alone. -/
theorem spriteBit_congr {t : State} {x y : Reg} (hx : t.reg x = s.reg x) (hy : t.reg y = s.reg y) (hi : t.i = s.i)
    (hmem : t.mem = s.mem) (hcfg : t.cfg = s.cfg) (n px py : Nat) :
    spriteBit t x y n px py = spriteBit s x y n px py := by
  simp only [spriteBit, hx, hy, hi, State.byteAt_congr hmem hcfg]

/-- Settles O56: the second draw is of the same sprite, so by O55 each pixel is toggled twice or not at all; and what it meets on
a screen that was empty is the sprite itself. -/
theorem drawingTwiceRestoresTheScreen : Obligations.DrawingTwiceRestoresTheScreen := by
  intro x y n s t u hx hy hreadable hfirst hsecond
  obtain ⟨-, hdraw, -⟩ := drawXorsTheSprite x y n s
  obtain ⟨t', hexec, hpixel, -, -, hregs, hframe⟩ := hdraw hreadable
  cases hfirst.symm.trans hexec
  have hi : t.i = s.i := by rw [hframe]
  have hsprite : ∀ px py, spriteBit t x y n.val px py = spriteBit s x y n.val px py :=
    spriteBit_congr (hregs x hx) (hregs y hy) hi (by rw [hframe]) (by rw [hframe]) n.val
  obtain ⟨-, hdraw, -⟩ := drawXorsTheSprite x y n t
  obtain ⟨u', hexec, hpixel', hcollides, hclear, hregs', -⟩ := hdraw (hi ▸ hreadable)
  cases hsecond.symm.trans hexec
  refine ⟨eq_of_pixel_eq fun px py hpx hpy => ?restored, fun r hr => (hregs' r hr).trans (hregs r hr), fun hempty => ⟨?met, ?set⟩⟩
  case restored => rw [hpixel' px py hpx hpy, hpixel px py hpx hpy, hsprite, Bool.xor_assoc, Bool.xor_self, Bool.xor_false]
  case met =>
    intro hflag
    by_contra hnone
    refine absurd (hflag.symm.trans (hclear ?_)) (by decide)
    rintro ⟨px, py, hpx, hpy, -, hbit⟩
    exact hnone ⟨px, py, hpx, hpy, (hsprite px py).symm.trans hbit⟩
  case set =>
    rintro ⟨px, py, hpx, hpy, hbit⟩
    refine hcollides ⟨px, py, hpx, hpy, ?_, (hsprite px py).trans hbit⟩
    rw [hpixel px py hpx hpy, hempty, hbit, Bool.false_xor]

end Sys2Proof.Machine
end

section
/-! PROOFS of the family 45_timers_keypad.md: the key skips, the timer moves, and which key a wait takes (R220–R226). -/

namespace Sys2Proof.Machine

variable {s : State}

/-! ### Skips on a key (R221, R222) -/

/-- A skip on the negated condition ends at pc0 + 2 where the condition holds (R120). -/
theorem State.skipIf_not (c : Bool) : s.skipIf (!c) = s.setPc (if c then s.pc + 2 else s.pc + 4) := by
  rw [State.skipIf_eq]
  cases c <;> rfl

/-- The key a byte names is that of its low nibble (R220). -/
theorem State.keyDown_keyCode {b : Byte} {k : Reg} (hk : k.val = b.toNat % 16) : s.keyDown (keyCode b) = s.keys[k.val] := by
  have hcode : keyCode b = k := Fin.ext ((keyCode_val b).trans hk.symm)
  rw [hcode, State.keyDown]

/-- Settles O57: both test the key of the low nibble of Vx, SKNP its negation. -/
theorem keySkips : Obligations.KeySkips := by
  refine fun x s => ⟨encoded_row (.skp x), encoded_row (.sknp x), fun k hk => ⟨?skp, ?sknp⟩⟩
  case skp =>
    change execSkp x s = _
    rw [execSkp, State.keyDown_keyCode hk, State.skipIf_eq, State.setPc]
  case sknp =>
    change execSknp x s = _
    rw [execSknp, State.keyDown_keyCode hk, State.skipIf_not, State.setPc]

/-! ### The timer moves (R223, R225, R226) -/

/-- Settles O58: the read writes Vx alone, and each load writes its timer alone. -/
theorem timerMoves : Obligations.TimerMoves := fun x s =>
  ⟨encoded_row (.ldVxDt x), encoded_row (.ldDtVx x), encoded_row (.ldStVx x),
    ⟨_, rfl, reg_setReg_advance_self x s.dt, rfl, onlyRegsChange_setReg x s.dt⟩, rfl, rfl⟩

/-! ### The key a wait takes (R224) -/

/-- The lowest key is the one that is down with no key below it down. -/
theorem State.lowestKey_eq_some {k : Reg} :
    s.lowestKey = some k ↔ s.keyDown k = true ∧ ∀ j < k, s.keyDown j = false := by
  rw [State.lowestKey, ← Fin.find?_eq_find?_finRange, Fin.find?_eq_some_iff]

/-- Fx0A with a key down, the whole next state (R224). -/
theorem exec_ldVxK_of_lowestKey (x : Reg) {k : Reg} (hkey : s.lowestKey = some k) :
    exec (.ldVxK x) s = .next (s.setReg x (BitVec.ofNat 8 k.val)).advance := by
  change execLdVxK x s = _
  rw [execLdVxK, hkey]

/-- A key code as a byte is not reduced mod 256. -/
theorem keyCode_byte_toNat (k : Reg) : (BitVec.ofNat 8 k.val).toNat = k.val :=
  (BitVec.toNat_ofNat _ 8).trans (Nat.mod_eq_of_lt (by omega))

/-- Settles O59: with no key down there is no lowest key; else the key named is the lowest one, and its code is written to Vx alone. -/
theorem keyWaitTakesTheLowestKey : Obligations.KeyWaitTakesTheLowestKey := by
  refine fun x s => ⟨encoded_row (.ldVxK x), exec_ldVxK_of_no_key x, fun k hdown hnoneBelow => ?taken⟩
  case taken =>
    have hkey : s.lowestKey = some k := State.lowestKey_eq_some.2 ⟨hdown, hnoneBelow⟩
    refine ⟨_, exec_ldVxK_of_lowestKey x hkey, ?code, rfl, onlyRegsChange_setReg x _⟩
    case code => rw [reg_setReg_advance_self, keyCode_byte_toNat]

end Sys2Proof.Machine
end

section
/-! PROOFS of the family 60_exceptions.md: what a fault of `execute_one` leaves and records, which instructions raise one, the latch that
only reset clears, and the driver's loadRom and setKeys (R240–R258, R282). -/

namespace Sys2Proof.Machine

variable {s t : State} {i : Instr} {r : FaultRecord}

/-! ### Taking a fault is precise (R241, R246, R247) -/

/-- The word fetched, which a fault record keeps as its opcode; none where the fetch itself is refused (R101, R247). -/
def State.fetchedWord (s : State) : Option Word := if s.inWindow then some s.wordAtPc else none

theorem State.fetchedWord_of_inWindow (hin : s.inWindow = true) : s.fetchedWord = some s.wordAtPc := if_pos hin

theorem State.fetchedWord_of_not_inWindow (hout : s.inWindow = false) : s.fetchedWord = none := by
  simp [State.fetchedWord, hout]

/-- Inside the fetch window a word that does not decode raises DecodeFault (R101, R241). -/
theorem executeOne_of_illegal {e : DecodeReject} (hin : s.inWindow = true) (hdecode : decode s.wordAtPc = .error e) :
    executeOne s = .next (s.raise .decodeFault (some s.wordAtPc) none) := by
  rw [executeOne, if_pos hin, hdecode]

/-- No fault is latched by a step that leaves HALT as it was on an engine that is not halted. -/
theorem not_latched_of_halt_eq (hhalt : s.halt = none) (hkept : t.halt = s.halt) : t.halt ≠ some r := by
  simp [hkept, hhalt]

/-- A record that `execute_one` latches was taken by `raise` on the state before the fetch, with the fetched word as its opcode and a
kind and an addr that R245 and R247 allow. -/
theorem executeOne_raise (hhalt : s.halt = none) (h : executeOne s = .next t) (hr : t.halt = some r) :
    ∃ k a, k ≠ .romTooLarge ∧ (a.isSome = true ↔ k = .addressFault) ∧ t = s.raise k s.fetchedWord a := by
  obtain ⟨hin, i, hdecode, hexec⟩ | ⟨hin, -, rfl⟩ | ⟨hout, rfl⟩ := executeOne_cases h
  · obtain hkept | ⟨k, a, hk, ha, rfl⟩ := exec_halt hexec
    · exact absurd hr (not_latched_of_halt_eq hhalt hkept)
    · have hop : encode i = s.wordAtPc := encodeInvertsDecode _ _ hdecode
      exact ⟨k, a, hk, ha, by rw [State.raiseIn, hop, State.fetchedWord_of_inWindow hin]⟩
  · exact ⟨.decodeFault, none, by decide, by decide, by rw [State.fetchedWord_of_inWindow hin]⟩
  · exact ⟨.addressFault, some s.pc.toNat, by decide, by simp, by rw [State.fetchedWord_of_not_inWindow hout]⟩

/-- Settles O7: a word no row covers does not decode. -/
theorem illegalWordRaisesDecodeFault : Obligations.IllegalWordRaisesDecodeFault := by
  intro s hmin hmax hillegal
  have hin : s.inWindow = true := s.inWindow_iff.2 ⟨hmin, hmax⟩
  exact executeOne_of_illegal hin (decode_illegal_of_not_wordWellFormed hillegal)

/-- Settles O9: the record was taken by `raise`, which changes HALT alone. -/
theorem faultsArePrecise : Obligations.FaultsArePrecise := by
  intro s t r hhalt h hr
  obtain ⟨k, a, -, -, rfl⟩ := executeOne_raise hhalt h hr
  cases hr
  rfl

/-- Settles O10: the fields of the record are the arguments of the `raise` that took it. -/
theorem faultRecordSaysWhatHappened : Obligations.FaultRecordSaysWhatHappened := by
  intro s t r hhalt h hr
  obtain ⟨k, a, hk, ha, rfl⟩ := executeOne_raise hhalt h hr
  cases hr
  exact ⟨rfl, ha, hk, fun hin => State.fetchedWord_of_inWindow (s.inWindow_iff.2 hin),
    fun hout => State.fetchedWord_of_not_inWindow (s.not_inWindow_iff.2 hout)⟩

/-! ### Which instructions raise a fault (R242–R244, R249) -/

/-- The instructions that can raise a fault, each with its kind and with the condition on the state that the fault needs. -/
inductive CanRaise (s : State) : Instr → FaultKind → Prop where
  /-- R242 -/
  | overflow (nnn : Addr) (hfull : s.sp = 16) : CanRaise s (.call nnn) .stackOverflow
  /-- R243 -/
  | underflow (hempty : s.sp = 0) : CanRaise s .ret .stackUnderflow
  /-- R201, R244: a sprite of no rows reads nothing -/
  | draw (x y : Reg) (n : Fin 16) (hn : n ≠ 0) : CanRaise s (.drw x y n) .addressFault
  /-- R184, R244 -/
  | bcd (x : Reg) : CanRaise s (.ldB x) .addressFault
  /-- R185, R244 -/
  | store (x : Reg) : CanRaise s (.ldStore x) .addressFault
  /-- R186, R244 -/
  | load (x : Reg) : CanRaise s (.ldLoad x) .addressFault

/-- A read of no bytes offends at no address (R51). -/
theorem ne_zero_of_readBytes_error {a len bad : Nat} (h : s.readBytes a len = .error bad) : len ≠ 0 := by
  rintro rfl
  cases h

/-- An instruction leaves HALT, or takes a fault that it can raise in this state. -/
theorem exec_halt_eq_or_canRaise (h : exec i s = .next t) :
    t.halt = s.halt ∨ ∃ k a, CanRaise s i k ∧ t = s.raiseIn i k a := by
  cases i with
  | ret =>
    by_cases hempty : s.sp = 0
    · rw [exec_ret_empty hempty] at h
      cases h
      exact .inr ⟨_, _, .underflow hempty, rfl⟩
    · obtain ⟨j, hj⟩ := Fin.exists_succ_eq.2 hempty
      rw [retCompletesOnEveryNonEmptyStack j s (congrArg Fin.val hj.symm)] at h
      cases h
      exact .inl rfl
  | call nnn =>
    by_cases hfull : s.sp = 16
    · rw [exec_call_full nnn hfull] at h
      cases h
      exact .inr ⟨_, _, .overflow nnn hfull, rfl⟩
    · rw [exec_call_eq nnn (Fin.val_lt_last hfull)] at h
      cases h
      exact .inl rfl
  | drw x y n =>
    change execDrw x y n s = .next t at h
    unfold execDrw at h
    split at h <;> cases h
    · next hread =>
      exact .inr ⟨_, _, .draw x y n fun hn => ne_zero_of_readBytes_error hread (congrArg Fin.val hn), rfl⟩
    · exact .inl rfl
  | ldB x =>
    change execLdB x s = .next t at h
    unfold execLdB at h
    split at h <;> cases h
    · exact .inr ⟨_, _, .bcd x, rfl⟩
    · next hwrite =>
      obtain ⟨-, rfl⟩ := State.writeBytes_ok s hwrite
      exact .inl rfl
  | ldStore x =>
    change execLdStore x s = .next t at h
    unfold execLdStore at h
    split at h <;> cases h
    · exact .inr ⟨_, _, .store x, rfl⟩
    · next hwrite =>
      obtain ⟨-, rfl⟩ := State.writeBytes_ok s hwrite
      exact .inl rfl
  | ldLoad x =>
    change execLdLoad x s = .next t at h
    unfold execLdLoad at h
    split at h <;> cases h
    · exact .inr ⟨_, _, .load x, rfl⟩
    · exact .inl rfl
  | ldVxK x =>
    change execLdVxK x s = .next t at h
    unfold execLdVxK at h
    split at h <;> cases h <;> exact .inl rfl
  | rnd x kk =>
    obtain ⟨b, r, hdraw⟩ := s.drawRand_eq
    change execRnd x kk s = .next t at h
    rw [execRnd, hdraw] at h
    cases h
    exact .inl rfl
  | _ => cases h; exact .inl rfl

/-- Settles O11: the fault latched is one of those that can be raised, listed in the statement's order. -/
theorem onlyTheseInstructionsFault : Obligations.OnlyTheseInstructionsFault := by
  intro i s t r hhalt h hr
  obtain hkept | ⟨k, a, hraise, rfl⟩ := exec_halt_eq_or_canRaise h
  · exact absurd hr (not_latched_of_halt_eq hhalt hkept)
  · cases hr
    cases hraise with
    | overflow nnn hfull => exact .inl ⟨rfl, hfull, nnn, rfl⟩
    | underflow hempty => exact .inr (.inl ⟨rfl, hempty, rfl⟩)
    | draw x y n hn => exact .inr (.inr ⟨rfl, .inl ⟨x, y, n, rfl, hn⟩⟩)
    | bcd x => exact .inr (.inr ⟨rfl, .inr (.inl ⟨x, rfl⟩)⟩)
    | store x => exact .inr (.inr ⟨rfl, .inr (.inr (.inl ⟨x, rfl⟩))⟩)
    | load x => exact .inr (.inr ⟨rfl, .inr (.inr (.inr ⟨x, rfl⟩))⟩)

/-- Settles O12: every meaning answers a next state. -/
theorem everyInstructionAnswersANextState : Obligations.EveryInstructionAnswersANextState := exec_next

/-! ### The latch is cleared by reset alone (R248) -/

/-- What a halted engine keeps: the record, PC, the V registers, I and both timers. -/
def StaysHalted (s t : State) : Prop :=
  t.halt = s.halt ∧ t.pc = s.pc ∧ t.v = s.v ∧ t.i = s.i ∧ t.dt = s.dt ∧ t.st = s.st

/-- A driver call on a halted engine is reset, or keeps the engine halted as it was (R248, R258). -/
theorem perform_of_halted {c : DriverCall} (hhalt : s.halt = some r) (h : perform c s = .next t) :
    (c = .reset ∧ t = s.resetEngine) ∨ StaysHalted s t := by
  have hkept : StaysHalted s s := ⟨rfl, rfl, rfl, rfl, rfl, rfl⟩
  obtain hreset | ⟨bytes, -, -, -, rfl⟩ | ⟨bytes, -, -, rfl⟩ | ⟨k, -, rfl⟩ | ⟨n, -, rfl⟩ := perform_cases h
  · exact .inl hreset
  · exact .inr hkept
  · exact .inr hkept
  · exact .inr hkept
  · rw [beginStep_halted n hhalt]
    exact .inr hkept

/-- Settles O19: a halted engine runs no slot, so the step is a driver call, which is reset or keeps the engine halted. -/
theorem onlyResetClearsHalt : Obligations.OnlyResetClearsHalt := by
  intro s t r hhalt _ h
  obtain ⟨n, u, -, hrunning, -, -⟩ | ⟨-, hcall⟩ := step_cases h
  · rw [hhalt] at hrunning
    cases hrunning
  · obtain ⟨d, hd, -⟩ := nextCall_eq s
    rw [hd] at hcall
    have hhalt' : (s.setDrv d).halt = some r := hhalt
    obtain ⟨hreset, rfl⟩ | ⟨hkept, hframe⟩ := perform_of_halted hhalt' hcall
    · exact .inr ⟨hreset, rfl⟩
    · exact .inl ⟨hkept.trans hhalt, hframe⟩

/-! ### loadRom and setKeys (R245, R256, R282) -/

/-- With no step call running and a call lined up, a step makes that call (R258). -/
theorem step_of_script {c : DriverCall} {rest : List DriverCall} (hleft : s.drv.left = 0) (hscript : s.drv.script = c :: rest) :
    step s = perform c (s.setDrv { s.drv with script := rest }) := by
  rw [step_of_idle hleft, driverTurn, nextCall_script hscript]

/-- An image that fits is stored after a reset (R282). -/
theorem loadRom_of_fits {bytes : List Byte} (hfits : bytes.length ≤ romMax) (hfresh : s.drv.fresh = true) :
    loadRom bytes s = .next ((s.storeRom bytes).returning .ok) := by
  simp [loadRom, romWellFormed, hfits, hfresh]

/-- An image that does not fit is rejected (R245). -/
theorem loadRom_of_too_large {bytes : List Byte} (hlarge : romMax < bytes.length) :
    loadRom bytes s = .next (s.returning .romTooLarge) := by
  simp [loadRom, romWellFormed, hlarge]

/-- Settles O25: an image that fits is a block write at 0x200, read back byte by byte; a longer one changes the returned status alone. -/
theorem loadRomStoresOrRejectsTheImage : Obligations.LoadRomStoresOrRejectsTheImage := by
  intro s bytes rest hleft hscript
  rw [step_of_script hleft hscript]
  refine ⟨fun hfits hfresh => ⟨_, loadRom_of_fits hfits hfresh, ?bytes, ?frame⟩, fun hlarge => ?rejected⟩
  case bytes => exact fun a => s.byteAt_setBytes romBase a bytes
  case frame => rw [State.returning, ← hleft]; rfl
  case rejected =>
    change loadRom bytes _ = _
    rw [loadRom_of_too_large hlarge, State.returning, ← hleft]
    rfl

/-- Settles O27: the step makes the call, which writes the latch. -/
theorem setKeysOverwritesTheLatch : Obligations.SetKeysOverwritesTheLatch := by
  intro s k rest hleft hscript
  rw [step_of_script hleft hscript, perform, State.setKeys, State.setDrv]

end Sys2Proof.Machine
end

section
/-! PROOFS of the family 70_reset_and_hazards.md: the driver's load that no reset preceded (R282, D21, U15). -/

namespace Sys2Proof.Machine

variable {s : State}

/-- An image that fits is refused by name when no reset preceded the load (D21, U15, log 8). -/
theorem loadRom_of_not_fresh {bytes : List Byte} (hfits : bytes.length ≤ romMax) (hstale : s.drv.fresh = false) :
    loadRom bytes s = .refused .loadRomWithoutReset := by
  simp [loadRom, romWellFormed, hfits, hstale]

/-- Settles O26: the step makes the call, and taking it off the script leaves the driver's record that no reset preceded. -/
theorem loadRomWithoutResetIsRefused : Obligations.LoadRomWithoutResetIsRefused := by
  intro s bytes rest hleft hscript hfits hstale
  rw [step_of_script hleft hscript, perform]
  exact loadRom_of_not_fresh hfits hstale

end Sys2Proof.Machine
end
